-- ==== Sys2Proof/Word.lean ====
section
/-! DEFINITION. The bit-vector types of the CORE (spec/00_scope.md rules R7 and R9; spec/10_state.md rule R20).
Every value is unsigned, and bit 0 is the least significant bit. -/

namespace Sys2Proof

/-- A 32-bit register value or CMD word (R20, R60). -/
abbrev Word := BitVec 32

/-- An Octet, a character code, or one buffer byte holding any of these (R7). -/
abbrev Byte := BitVec 8

/-- A CodePoint, one symbol of the 7-bit alphabet (R7). -/
abbrev CodePoint := BitVec 7

/-- A byte offset in the host address space (R40). -/
abbrev Offset := BitVec 16

end Sys2Proof
end

