-- ==== Sys2Proof/Config.lean ====
section
/-! DEFINITION. What one implementation of the CORE fixes (spec/00_scope.md rule R6). A machine carries its
configuration in its state, so a statement about every state is a statement about every capacity. -/

namespace Sys2Proof

/-- The implementation parameters a result depends on (R6, decision D5).
OUT_CAP is derived from IN_CAP: `Sys2Proof.Machine.outCap`. -/
structure Config where
  /-- IN_CAP, the capacity of IN_BUF in bytes. -/
  inCap : Nat
deriving DecidableEq, Repr

/-- The default of R6: IN_CAP = 224. -/
def Config.default : Config := { inCap := 224 }

/-- CMD_LATENCY (R6, R186, I2): the clock cycles from a CMD write of this word, at this IN_LEN.LEN, to its
completion. The spec leaves it OPEN, so it has no value here, and by R186 nothing in the model reads it.
DEDUCED, safe: log entry 2. -/
opaque Config.cmdLatency : Word → BitVec 16 → Nat

end Sys2Proof
end

