-- ==== Sys2Proof/Syntax.lean ====
section
/-! DEFINITION. The six commands of the CORE, one constructor per row of spec/opcode_table.json
(spec/30_encoding.md rule R61). A command has no operand field (R63): what it works on is in IN_LEN and IN_BUF. -/

namespace Sys2Proof

/-- The commands, in the order of the opcode map (R61). -/
inductive Instr where
  /-- MAPF: characters to CodePoints (R86). -/
  | mapf
  /-- MAPR: CodePoints to characters (R87). -/
  | mapr
  /-- PACK: CodePoints to octets (R103). -/
  | pack
  /-- UNPACK: octets to CodePoints (R123). -/
  | unpack
  /-- ENCODE: characters to octets (R140). -/
  | encode
  /-- DECODE: octets to characters (R141). -/
  | decode
deriving DecidableEq, Repr

end Sys2Proof
end

