-- ==== Sys2Proof/WellFormed.lean ====
section
/-! DEFINITION. The checks on syntax and configuration. The check on host assembly stands beside its types, in
Machine/HostAsm.lean, and the check on memory beside Memory, in Machine/State.lean. -/

namespace Sys2Proof

/-- Every command is well formed: CMD32 has no operand field (R63, R64), so there is nothing a check could refuse. -/
def Instr.wellFormed : Instr → Bool
  | .mapf => true
  | .mapr => true
  | .pack => true
  | .unpack => true
  | .encode => true
  | .decode => true

/-- The legal values of IN_CAP: 1 ≤ IN_CAP ≤ 3584 (R6). The upper bound keeps OUT_CAP within the OUT window. -/
def Config.legal (c : Config) : Bool :=
  decide (1 ≤ c.inCap) && decide (c.inCap ≤ 3584)

end Sys2Proof
end

