-- ==== Sys2Proof/Decode.lean ====
section
/-! DEFINITION. The command decoder and encoder (spec/30_encoding.md rules R60 to R65).
A CMD word is one 32-bit datum moved whole (R45), so no byte order enters. -/

namespace Sys2Proof

/-- The decoder's codomain (R65): one of the six commands, or Illegal, the one name under which a word is rejected. -/
inductive Decoded where
  | command (i : Instr)
  | illegal
deriving DecidableEq, Repr

/-- RSV, bits 31:4 of a CMD word (R60). -/
def cmdRsv (w : Word) : BitVec 28 := w.extractLsb' 4 28

/-- OP, bits 3:0 of a CMD word (R60). -/
def cmdOp (w : Word) : BitVec 4 := w.extractLsb' 0 4

/-- The decoder of R65: total on 32-bit words. -/
def decodeWord (w : Word) : Decoded :=
  if cmdRsv w ≠ 0 then .illegal
  else match (cmdOp w).toNat with
    | 1 => .command .mapf
    | 2 => .command .mapr
    | 3 => .command .pack
    | 4 => .command .unpack
    | 5 => .command .encode
    | 6 => .command .decode
    | _ => .illegal

/-- The OP value of each command (R61). -/
def opcode : Instr → BitVec 4
  | .mapf => 0x1
  | .mapr => 0x2
  | .pack => 0x3
  | .unpack => 0x4
  | .encode => 0x5
  | .decode => 0x6

/-- The CMD word of a command: RSV all zero, then OP (R60, R61). -/
def encode (i : Instr) : Word := (0 : BitVec 28) ++ opcode i

/-- The CMD word whose bits the opcode table gives as the number `w` on `nbits` bits, with zeros above them.
It is `none` for a number that does not fit CMD32, which has no longer form (R60, R64). -/
def tableWord (nbits w : Nat) : Option Word :=
  if w % 2 ^ nbits < 2 ^ 32 then some (BitVec.ofNat 32 (w % 2 ^ nbits)) else none

/-- The decoder applied to an opcode-table word. -/
def decodeTableWord (nbits w : Nat) : Option Instr :=
  match tableWord nbits w with
  | none => none
  | some cmd =>
    match decodeWord cmd with
    | .command i => some i
    | .illegal => none

end Sys2Proof
end

