-- ==== Sys2Proof/Machine/State.lean ====
section
/-! DEFINITION. The state of the CORE (spec/10_state.md), the events at its host port and reset input, the ways a
step can stop, and the state after reset. All of it is plain data. -/

namespace Sys2Proof.Machine

/-- A buffer's bytes, keyed by buffer index: strictly rising keys, and only written bytes are listed.
An unlisted index is an *unwritten* byte and reads as no value (R37). DESIGN CHOICE, safe: one list per buffer, keyed by
index (log entry 7). -/
abbrev Memory := List Host.Cell

/-- The canonical form of a Memory: strictly rising keys. (An unlisted index reads as no value, so no entry can
equal what an unlisted index reads as.) -/
abbrev Memory.wf (m : Memory) : Prop := m.Pairwise (fun a b => a.1 < b.1)

/-- One host access, as the access tuple of R68. Host widths other than 1 and 4 do not exist (R44). -/
inductive HostAccess where
  /-- `MemRead(off, 1)`, tuple `R1 off`. -/
  | readByte (off : Offset)
  /-- `MemRead(off, 4)`, tuple `R4 off`. -/
  | readWord (off : Offset)
  /-- `MemWrite(off, 1, v)`, tuple `W1 off v`. -/
  | writeByte (off : Offset) (v : Byte)
  /-- `MemWrite(off, 4, w)`, tuple `W4 off w`. -/
  | writeWord (off : Offset) (w : Word)
deriving DecidableEq, Repr

/-- What arrives at the CORE from outside: an access on the host port (R3), or a change of the reset input (R180).
DESIGN CHOICE: that these are plain data in the state (log entry 3, safe), and the reset events (log entry 5, unsafe). -/
inductive HostEvent where
  /-- The host issues an access. -/
  | access (a : HostAccess)
  /-- The reset input is asserted between two accesses. -/
  | assertReset
  /-- The reset input is asserted while the CMD write of `w` is in progress: the write does not complete (R180). -/
  | assertResetDuring (w : Word)
  /-- The reset input is released. -/
  | releaseReset
deriving DecidableEq, Repr

/-- The datum a host read returns: one buffer byte or one register value (R45). -/
inductive HostDatum where
  | byte (v : Byte)
  | word (v : Word)
deriving DecidableEq, Repr

/-- Why the model stops. -/
inductive Fault where
  /-- `UninitRead`, the model's own fault of R37 and R171: raised by a command that reads an unwritten IN_BUF byte, and by
  a host read of an unwritten IN_BUF or OUT_BUF byte. SAFE: the chip would go on with some byte, and the model refuses to
  choose one, so no claim can rest on it. -/
  | uninitRead
deriving DecidableEq, Repr

/-- Why the model has no meaning to offer. -/
inductive Refusal where
  /-- A command whose meaning is not written; raised only by an arm of `exec`. SAFE: nothing is claimed of it. No arm of this
  model raises it. -/
  | notModelled (mnemonic : String)
deriving DecidableEq, Repr

/-- The whole state: R20's table, then the level of the reset input, then the two ends of the host port.
CMD stores nothing (R27) and CAP is computed from `config` (R26), so neither has a field. DEDUCED, safe: only the stored bits
of a register are held (log entry 8). -/
structure State where
  /-- The implementation parameter IN_CAP, which CAP shows (R6, R26). No event changes it. DESIGN CHOICE, safe: log entry 1. -/
  config : Config
  /-- IN_BUF, indexed from 0 (R21). -/
  inBuf : Memory
  /-- OUT_BUF, indexed from 0 (R22). -/
  outBuf : Memory
  /-- IN_LEN.LEN, the 16 stored bits of IN_LEN (R23). -/
  inLen : BitVec 16
  /-- OUT_LEN.LEN, the 16 stored bits of OUT_LEN (R24). -/
  outLen : BitVec 16
  /-- STATUS[2:0] = BAD_OP, LEN_OVF, INPUT_ERR, the 3 stored bits of STATUS (R25). -/
  status : BitVec 3
  /-- The level of the reset input: `true` while it is asserted (R180; log entry 5). -/
  resetAsserted : Bool
  /-- What the outside is yet to do, first to arrive first (R49). The model's own field: the input side of the host port.
  DESIGN CHOICE, safe: log entry 3. -/
  pending : List HostEvent
  /-- What host reads have returned, the most recent first. The model's own field: the output side of the host port.
  DESIGN CHOICE, safe: log entry 3. -/
  reads : List HostDatum
deriving DecidableEq, Repr

/-- The state just after reset is released, for a given configuration (R31, R180). DESIGN CHOICE, safe: the two ends
of the host port are empty (log entry 3). -/
def State.afterReset (c : Config) : State where
  config := c
  inBuf := []
  outBuf := []
  inLen := 0
  outLen := 0
  status := 0
  resetAsserted := false
  pending := []
  reads := []

/-- The machine right after reset, at the default configuration (R6, R31). -/
def State.reset : State := State.afterReset Config.default

end Sys2Proof.Machine
end

