-- ==== Sys2Proof/Machine/Flags.lean ====
section
/-! DEFINITION. The conditions, their STATUS bits, and the checks that raise them
(spec/60_exceptions.md rules R160 to R166). STATUS is the CORE's only flag register (R34). -/

namespace Sys2Proof.Machine

/-- The three conditions (R160). -/
inductive Condition where
  /-- InputError, STATUS.INPUT_ERR (R161). -/
  | inputError
  /-- LengthOverflow, STATUS.LEN_OVF (R162). -/
  | lengthOverflow
  /-- IllegalCommand, STATUS.BAD_OP (R163). -/
  | illegalCommand
deriving DecidableEq, Repr

/-- A condition's code, the number of its STATUS bit (R160). -/
def conditionCode : Condition → Nat
  | .inputError => 0
  | .lengthOverflow => 1
  | .illegalCommand => 2

/-- STATUS after a condition: its bit alone (R165). -/
def conditionStatus (c : Condition) : BitVec 3 := 1#3 <<< conditionCode c

/-- The check of UNPACK and DECODE on their operand octets: one octet with bit 7 set (R122). -/
def inputErrorCheck : List Byte → Option Condition
  | [b] => if b.getLsbD 7 then some .inputError else none
  | _ => none

/-- The check of the commands that never raise InputError: MAPF, MAPR, PACK and ENCODE (R161). -/
def noInputCheck : List Byte → Option Condition := fun _ => none

end Sys2Proof.Machine
end

