-- ==== Sys2Proof/Machine/Operands.lean ====
section
/-! DEFINITION. How a command's implicit operands are read from IN_LEN and IN_BUF, and the length laws
(spec/30_encoding.md rule R63). -/

namespace Sys2Proof.Machine

/-- OUT_CAP = floor(8 × IN_CAP / 7) (R6, R22). -/
def outCap (c : Config) : Nat := 8 * c.inCap / 7

/-- M(n) = n − floor(n/8), the packed length of n CodePoints (R100). -/
def packedLength (n : Nat) : Nat := n - n / 8

/-- N(m) = floor(8m/7), the unpacked count of m octets (R120). -/
def unpackedCount (m : Nat) : Nat := 8 * m / 7

/-- The CodePoint in a buffer byte: bits [6:0], bit 7 ignored (R63, decision D14). -/
def codePointOf (b : Byte) : CodePoint := b.setWidth 7

/-- The buffer byte of a CodePoint: bits [6:0], bit 7 = 0 (R63). -/
def byteOf (p : CodePoint) : Byte := p.setWidth 8

/-- The byte at an index, or no value where the byte is unwritten (R37). -/
def Memory.read : Memory → Nat → Option Byte
  | [], _ => none
  | (a, b) :: m, k => if a = k then some b else Memory.read m k

/-- The `n` bytes from index `k` on, or no value where one of them is unwritten. -/
def Memory.readFrom (m : Memory) : Nat → Nat → Option (List Byte)
  | _, 0 => some []
  | k, n + 1 =>
    match Memory.read m k, Memory.readFrom m (k + 1) n with
    | some b, some bs => some (b :: bs)
    | _, _ => none

/-- The operand bytes of the next command, IN_BUF[0..IN_LEN.LEN-1] (R21, R47). -/
def inputBytes (s : State) : Option (List Byte) :=
  Memory.readFrom s.inBuf 0 s.inLen.toNat

end Sys2Proof.Machine
end

