-- ==== Sys2Proof/Machine/Ops.lean ====
section
/-! DEFINITION. The shared operations: writing buffer bytes, raising a condition, completing a command, the frame
of checks every command runs in, and reset. -/

namespace Sys2Proof.Machine

/-- Writes one byte, keeping the keys strictly rising. -/
def Memory.write : Memory → Nat → Byte → Memory
  | [], k, v => [(k, v)]
  | (a, b) :: m, k, v =>
    if k < a then (k, v) :: (a, b) :: m
    else if k = a then (k, v) :: m
    else (a, b) :: Memory.write m k v

/-- Writes bytes at `k`, `k + 1`, … in index order (R11). -/
def Memory.writeFrom (m : Memory) : Nat → List Byte → Memory
  | _, [] => m
  | k, v :: vs => Memory.writeFrom (Memory.write m k v) (k + 1) vs

/-- `raise c` (R165): STATUS becomes the condition's bit, OUT_LEN becomes 0, and nothing else changes. Nothing is saved and
there is no handler, so there is no return operation either: the next command replaces both registers (R167). -/
def raise (c : Condition) (s : State) : State :=
  { s with status := conditionStatus c, outLen := 0 }

/-- A command's normal end (R22, R166): its results go to OUT_BUF[0..L-1], OUT_LEN becomes their number L, and STATUS
becomes 0. OUT_BUF bytes at index L and above keep their values. -/
def complete (results : List Byte) (s : State) : State :=
  { s with
    outBuf := Memory.writeFrom s.outBuf 0 results
    outLen := BitVec.ofNat 16 results.length
    status := 0 }

/-- The second check of R164: IN_LEN.LEN > IN_CAP (R162). -/
def lengthOverflows (s : State) : Bool := decide (s.config.inCap < s.inLen.toNat)

/-- A legal command, with its own check and its own transform of the operand bytes, in the order of R164: the length
check, which reads no buffer byte; the operand bytes, where an unwritten one is the fault UninitRead (R171); the command's
check; and then the transform. DEDUCED, safe: a command reads all of its operand bytes (R47; log entry 6). -/
def runCommand (check : List Byte → Option Condition) (transform : List Byte → List Byte) (s : State) :
    Host.Outcome State Fault Refusal :=
  if lengthOverflows s then .next (raise .lengthOverflow s)
  else match inputBytes s with
    | none => .fault .uninitRead
    | some bytes =>
      match check bytes with
      | some c => .next (raise c s)
      | none => .next (complete (transform bytes) s)

/-- Every item of R20 at its reset value (R31, R180), with the reset input at the given level. The configuration is fixed, and
the two ends of the host port belong to the outside, so they stay. DESIGN CHOICE, unsafe: the state while reset is still
asserted (log entry 5). -/
def resetItems (asserted : Bool) (s : State) : State :=
  { State.afterReset s.config with
    resetAsserted := asserted
    pending := s.pending
    reads := s.reads }

end Sys2Proof.Machine
end

