-- ==== Sys2Proof/Machine/Map.lean ====
section
/-! DEFINITION. The MAP unit and the commands MAPF and MAPR (spec/40_alphabet_map.md). -/

namespace Sys2Proof.Machine

/-- The excluded set E = [0,9] ∪ [11,12] ∪ [14,31] ∪ [91,95] ∪ [123,127] (R80). -/
def excluded (c : Nat) : Bool :=
  decide (c ≤ 9) || decide (11 ≤ c ∧ c ≤ 12) || decide (14 ≤ c ∧ c ≤ 31) ||
    decide (91 ≤ c ∧ c ≤ 95) || decide (123 ≤ c ∧ c ≤ 127)

/-- F, the source's `toCodePoint` (R81). -/
def toCodePoint (c : Byte) : CodePoint :=
  if c = 0x24 then 0x02
  else if c = 0x40 then 0x00
  else if excluded c.toNat then 0x20
  else if 0x80 ≤ c.toNat then 0x20
  else c.setWidth 7

/-- Rv, the source's `toCharacter`; the special cases come before E (R82). -/
def toCharacter (p : CodePoint) : Byte :=
  if p = 0x00 then 0x40
  else if p = 0x02 then 0x24
  else if excluded p.toNat then 0x20
  else p.setWidth 8

/-- MAPF (R86). -/
def execMapf (s : State) : Host.Outcome State Fault Refusal :=
  runCommand noInputCheck (List.map fun c => byteOf (toCodePoint c)) s

/-- MAPR (R87). -/
def execMapr (s : State) : Host.Outcome State Fault Refusal :=
  runCommand noInputCheck (List.map fun b => toCharacter (codePointOf b)) s

end Sys2Proof.Machine
end

