-- ==== Sys2Proof/Machine/Pack.lean ====
section
/-! DEFINITION. The PACK unit and the command PACK (spec/41_septet_pack.md). -/

namespace Sys2Proof.Machine

/-- Octet `j` of the packed form of the CodePoints `s`, by the byte formula of R103 and R104. A septet past the end is the
zero fill of R102; no byte past the end is read. -/
def packOctet (s : List CodePoint) (j : Nat) : Byte :=
  let i := j + j / 7
  let r := j % 7
  let a := s.getD i 0
  let b := s.getD (i + 1) 0
  ((a.setWidth 16 >>> r) ||| (b.setWidth 16 <<< (7 - r))).setWidth 8

/-- The M(n) octets of a CodePoint sequence (R100, R103). -/
def packOctets (s : List CodePoint) : List Byte :=
  (List.range (packedLength s.length)).map (packOctet s)

/-- PACK (R103). -/
def execPack (s : State) : Host.Outcome State Fault Refusal :=
  runCommand noInputCheck (fun bytes => packOctets (bytes.map codePointOf)) s

end Sys2Proof.Machine
end

