-- ==== Sys2Proof/Machine/Unpack.lean ====
section
/-! DEFINITION. The UNPACK unit and the command UNPACK (spec/42_septet_unpack.md). -/

namespace Sys2Proof.Machine

/-- CodePoint `k` of the octets `o`, by the 16-bit window of R121: the current octet below, the next octet (or zero past
the end) above. -/
def unpackSeptet (o : List Byte) (k : Nat) : CodePoint :=
  let a := 7 * k / 8
  let sh := 7 * k % 8
  let window : BitVec 16 := o.getD (a + 1) 0 ++ o.getD a 0
  (window >>> sh).setWidth 7

/-- The N(m) CodePoints of an octet sequence (R120, R123). -/
def unpackOctets (o : List Byte) : List CodePoint :=
  (List.range (unpackedCount o.length)).map (unpackSeptet o)

/-- UNPACK (R123). -/
def execUnpack (s : State) : Host.Outcome State Fault Refusal :=
  runCommand inputErrorCheck (fun bytes => (unpackOctets bytes).map byteOf) s

end Sys2Proof.Machine
end

