-- ==== Sys2Proof/Machine/Transcode.lean ====
section
/-! DEFINITION. The transcoder composition and the commands ENCODE and DECODE (spec/43_transcoder.md). The
intermediate CodePoint sequence is internal to the command (R145). -/

namespace Sys2Proof.Machine

/-- ENCODE (R140): the forward map, then packing. -/
def execEncode (s : State) : Host.Outcome State Fault Refusal :=
  runCommand noInputCheck (fun bytes => packOctets (bytes.map toCodePoint)) s

/-- DECODE (R141): unpacking, then the reverse map. -/
def execDecode (s : State) : Host.Outcome State Fault Refusal :=
  runCommand inputErrorCheck (fun bytes => (unpackOctets bytes).map toCharacter) s

end Sys2Proof.Machine
end

