-- ==== Sys2Proof/Machine/HostPort.lean ====
section
/-! DEFINITION. The host port and the reset input: the address map, the registers as the host sees them, the four
kinds of access, and what each event does (spec/20_memory.md; spec/10_state.md rules R23 to R28; spec/70_reset_and_hazards.md
rule R180). -/

namespace Sys2Proof.Machine

/-- The five register addresses (R20, R41). -/
inductive Reg where
  | cmd | status | inLen | outLen | cap
deriving DecidableEq, Repr

/-- A register's offset (R41). -/
def regOffset : Reg → Offset
  | .cmd => 0x0000
  | .status => 0x0004
  | .inLen => 0x0008
  | .outLen => 0x000C
  | .cap => 0x0010

/-- The register at an offset, if there is one (R41). -/
def regAt (off : Offset) : Option Reg :=
  if off = regOffset .cmd then some .cmd
  else if off = regOffset .status then some .status
  else if off = regOffset .inLen then some .inLen
  else if off = regOffset .outLen then some .outLen
  else if off = regOffset .cap then some .cap
  else none

/-- What a byte-wide access reaches (R40, R42, R43). -/
inductive ByteTarget where
  /-- IN_BUF[i], with i < IN_CAP. -/
  | inByte (i : Nat)
  /-- OUT_BUF[j], with j < OUT_CAP. -/
  | outByte (j : Nat)
  /-- No buffer byte: an index at or above the capacity, the REG window, or an unmapped offset (R42 to R44). -/
  | nothing
deriving DecidableEq, Repr

/-- The address map for byte-wide accesses (R40, R42 to R44). -/
def byteTarget (c : Config) (off : Offset) : ByteTarget :=
  if 0x1000 ≤ off.toNat ∧ off.toNat < 0x2000 then
    if off.toNat - 0x1000 < c.inCap then .inByte (off.toNat - 0x1000) else .nothing
  else if 0x2000 ≤ off.toNat ∧ off.toNat < 0x3000 then
    if off.toNat - 0x2000 < outCap c then .outByte (off.toNat - 0x2000) else .nothing
  else .nothing

/-- CAP: OUT_CAP above IN_CAP (R26). -/
def capWord (c : Config) : Word := BitVec.ofNat 16 (outCap c) ++ BitVec.ofNat 16 c.inCap

/-- The 32-bit value a supported register read returns; reserved bits read 0, and CMD reads 0 (R23 to R28). -/
def readReg (s : State) : Reg → Word
  | .cmd => 0
  | .status => s.status.setWidth 32
  | .inLen => s.inLen.setWidth 32
  | .outLen => s.outLen.setWidth 32
  | .cap => capWord s.config

/-- The 32-bit value of a word-wide read: a register, or 0 where the access is unsupported (R41, R44). -/
def hostReadWord (s : State) (off : Offset) : Word :=
  match regAt off with
  | some r => readReg s r
  | none => 0

/-- The byte of a byte-wide read: a buffer byte (no value where it is unwritten, R37), or 0 (R42 to R44). -/
def hostReadByte (s : State) (off : Offset) : Option Byte :=
  match byteTarget s.config off with
  | .inByte i => Memory.read s.inBuf i
  | .outByte j => Memory.read s.outBuf j
  | .nothing => some 0

/-- A write of `w` to CMD: the whole command, or IllegalCommand (R27, R48, R164). -/
def startCommand (w : Word) (s : State) : Host.Outcome State Fault Refusal :=
  match decodeWord w with
  | .illegal => .next (raise .illegalCommand s)
  | .command i => exec i s

/-- A word-wide write: CMD starts a command, IN_LEN stores w[15:0], and every other write has no effect (R41, R44). -/
def hostWriteWord (off : Offset) (w : Word) (s : State) : Host.Outcome State Fault Refusal :=
  match regAt off with
  | some .cmd => startCommand w s
  | some .inLen => .next { s with inLen := w.setWidth 16 }
  | some .status => .next s
  | some .outLen => .next s
  | some .cap => .next s
  | none => .next s

/-- A byte-wide write: an IN_BUF byte below IN_CAP, and otherwise no effect (R42 to R44). -/
def hostWriteByte (off : Offset) (v : Byte) (s : State) : State :=
  match byteTarget s.config off with
  | .inByte i => { s with inBuf := Memory.write s.inBuf i v }
  | .outByte _ => s
  | .nothing => s

/-- Records the datum a read returns to the host. A read changes nothing else (R54). -/
def returnDatum (d : HostDatum) (s : State) : State := { s with reads := d :: s.reads }

/-- One host access, performed whole (R48, R49). -/
def performAccess (a : HostAccess) (s : State) : Host.Outcome State Fault Refusal :=
  match a with
  | .readByte off =>
    match hostReadByte s off with
    | none => .fault .uninitRead
    | some v => .next (returnDatum (.byte v) s)
  | .readWord off => .next (returnDatum (.word (hostReadWord s off)) s)
  | .writeByte off v => .next (hostWriteByte off v s)
  | .writeWord off w => hostWriteWord off w s

/-- One event (R180). While reset is asserted no access is accepted. A CMD write that reset interrupts is abandoned: it does not
complete, and what it had done is lost with everything else. Releasing a reset that is not asserted is no event.
DESIGN CHOICE, unsafe: an access that is not accepted leaves the queue (log entry 5). -/
def performEvent (e : HostEvent) (s : State) : Host.Outcome State Fault Refusal :=
  match e with
  | .access a => if s.resetAsserted then .next s else performAccess a s
  | .assertReset => .next (resetItems true s)
  | .assertResetDuring _ => .next (resetItems true s)
  | .releaseReset => if s.resetAsserted then .next (resetItems false s) else .next s

/-- One step of the machine: the next event, or nothing at all while none is pending, since the CORE starts no work by
itself (R182, R186). -/
def performNext (s : State) : Host.Outcome State Fault Refusal :=
  match s.pending with
  | [] => .next s
  | e :: rest => performEvent e { s with pending := rest }

/-- `s` with the CMD write of `w` as the next event, and reset not asserted. DESIGN CHOICE, safe: log entry 4. -/
def withCommandWrite (w : Word) (s : State) : State :=
  { s with
    resetAsserted := false
    pending := .access (.writeWord (regOffset .cmd) w) :: s.pending }

end Sys2Proof.Machine
end

