-- ==== Sys2Proof/Machine/Step.lean ====
section
/-! DEFINITION. The step of the machine: one event of the host port or the reset input (spec/70_reset_and_hazards.md
rule R186). -/

namespace Sys2Proof.Machine

/-- One step (R11, R48, R186): one host access, a CMD write together with its whole command, or one change of reset. -/
def step (s : State) : Host.Outcome State Fault Refusal := performNext s

/-- `s` with the CMD write of an opcode-table word as the next event. The CORE fetches nothing (R33): a command comes from the
host, so the pending host write is the place the next step takes its command from. -/
def State.withFetchWord (s : State) (nbits w : Nat) : State :=
  withCommandWrite (BitVec.ofNat 32 (w % 2 ^ nbits)) s

end Sys2Proof.Machine
end

