-- ==== Sys2Proof/Machine/HostAsm.lean ====
section
/-! DEFINITION. How a host program is written (spec/30_encoding.md rules R66 to R68): the access tuples, the assembly
whose instructions each stand for one access, its pseudo-instructions, and how a program is put at the host port.
DESIGN CHOICE, safe: blanks, commas and letter case in the text (log entry 10).
DESIGN CHOICE, unsafe: the byte of a `loadstr` character that has no ASCII code (log entry 12), bare hexadecimal in a `load`
line (log entry 13), a `load` or `dump` past the last offset (log entry 14). -/

namespace Sys2Proof.Machine

/-- A host program is a list of accesses (R68). -/
abbrev HostProgram := List HostAccess

/-- Puts a program at the host port, after what is already pending there. -/
def issue (p : HostProgram) (s : State) : State :=
  { s with pending := s.pending ++ p.map .access }

/-! ### The assembly (R66) -/

/-- What an assembly instruction names: a register, IN[i], OUT[j], or a raw offset. -/
inductive AsmTarget where
  | reg (r : Reg)
  | inByte (i : Nat)
  | outByte (j : Nat)
  | raw (off : Offset)
deriving DecidableEq, Repr

/-- The value of a word-wide write: a number, or the mnemonic of a command. -/
inductive AsmWord where
  | number (w : Word)
  | mnemonic (i : Instr)
deriving DecidableEq, Repr

/-- One assembly instruction. -/
inductive HostAsm where
  | sw (t : AsmTarget) (v : AsmWord)
  | lw (t : AsmTarget)
  | sb (t : AsmTarget) (v : Byte)
  | lb (t : AsmTarget)
deriving DecidableEq, Repr

/-- The offset of a target (R66). DESIGN CHOICE, unsafe: that of an index past the last 4-digit offset, which
`HostAsm.wellFormed` refuses but an expansion may reach, is taken modulo 2^16 (log entry 14). -/
def targetOffset : AsmTarget → Offset
  | .reg r => regOffset r
  | .inByte i => BitVec.ofNat 16 (0x1000 + i)
  | .outByte j => BitVec.ofNat 16 (0x2000 + j)
  | .raw off => off

/-- The forms R66 lists: `sw` and `lw` take a register or a raw offset, `sb` takes IN[i] or a raw offset, `lb` takes IN[i], OUT[j]
or a raw offset, a mnemonic is written to CMD only, and the offset of a tuple has 4 hexadecimal digits (DEDUCED, safe: log entry 11). -/
def HostAsm.wellFormed : HostAsm → Bool
  | .sw (.reg r) (.mnemonic _) => decide (r = .cmd)
  | .sw (.reg _) (.number _) => true
  | .sw (.raw _) (.number _) => true
  | .lw (.reg _) => true
  | .lw (.raw _) => true
  | .sb (.inByte i) _ => decide (0x1000 + i < 0x10000)
  | .sb (.raw _) _ => true
  | .lb (.inByte i) => decide (0x1000 + i < 0x10000)
  | .lb (.outByte j) => decide (0x2000 + j < 0x10000)
  | .lb (.raw _) => true
  | _ => false

/-- The word an `AsmWord` stands for. -/
def asmWordValue : AsmWord → Word
  | .number w => w
  | .mnemonic i => encode i

/-- The access an assembly instruction stands for (R66). -/
def assemble : HostAsm → HostAccess
  | .sw t v => .writeWord (targetOffset t) (asmWordValue v)
  | .lw t => .readWord (targetOffset t)
  | .sb t v => .writeByte (targetOffset t) v
  | .lb t => .readByte (targetOffset t)

/-! ### The pseudo-instructions (R67) -/

/-- The pseudo-instructions of R67. -/
inductive HostPseudo where
  | run (c : AsmWord)
  | load (bytes : List Byte)
  | loadstr (text : List Char)
  | dump
  | status
deriving DecidableEq, Repr

/-- `sb IN[k], b0`, `sb IN[k+1], b1`, … -/
def loadBytes : Nat → List Byte → List HostAsm
  | _, [] => []
  | k, b :: bs => .sb (.inByte k) b :: loadBytes (k + 1) bs

/-- `lb OUT[k]`, … for `n` bytes. -/
def dumpBytes : Nat → Nat → List HostAsm
  | _, 0 => []
  | k, n + 1 => .lb (.outByte k) :: dumpBytes (k + 1) n

/-- `load` (R67). -/
def expandLoad (bytes : List Byte) : List HostAsm :=
  loadBytes 0 bytes ++ [.sw (.reg .inLen) (.number (BitVec.ofNat 32 bytes.length))]

/-- A character's code, one byte: the ASCII code up to 0x7F (R67, K2). DESIGN CHOICE, unsafe: R67 gives no code to a
character above 0x7F, and the model takes its Unicode code point modulo 256 (log entry 12). -/
def charCode (c : Char) : Byte := BitVec.ofNat 8 c.toNat

/-- The expansion of a pseudo-instruction (R67). `outLen` is the value L that the `lw OUT_LEN` of a `dump` gives.
DESIGN CHOICE, unsafe: neither the number of bytes nor L is bounded (log entry 14). -/
def expandPseudo (outLen : Nat) : HostPseudo → List HostAsm
  | .run c => [.sw (.reg .cmd) c]
  | .load bytes => expandLoad bytes
  | .loadstr text => expandLoad (text.map charCode)
  | .dump => .lw (.reg .outLen) :: dumpBytes 0 outLen
  | .status => [.lw (.reg .status)]

/-! ### The tuples as text (R68) -/

/-- A hexadecimal digit, in capitals. -/
def hexDigit (n : Nat) : Char := Char.ofNat (if n < 10 then 48 + n else 55 + n)

/-- The value of a hexadecimal digit, in capitals or not. -/
def hexValue (c : Char) : Option Nat :=
  let n := c.toNat
  if 48 ≤ n ∧ n ≤ 57 then some (n - 48)
  else if 65 ≤ n ∧ n ≤ 70 then some (n - 55)
  else if 97 ≤ n ∧ n ≤ 102 then some (n - 87)
  else none

/-- The `d` low hexadecimal digits of `n`, the most significant first. -/
def hexText : Nat → Nat → List Char
  | 0, _ => []
  | d + 1, n => hexText d (n / 16) ++ [hexDigit (n % 16)]

/-- Reads hexadecimal digits after those already read as `acc`. -/
def hexNumberFrom : Nat → List Char → Option Nat
  | acc, [] => some acc
  | acc, c :: cs =>
    match hexValue c with
    | some v => hexNumberFrom (16 * acc + v) cs
    | none => none

/-- A field of exactly `d` hexadecimal digits. -/
def hexField (d : Nat) (cs : List Char) : Option Nat :=
  if cs.length = d then hexNumberFrom 0 cs else none

/-- The text of an access tuple: `<dir><width> <offset> [<data>]` (R68). -/
def tupleText : HostAccess → List Char
  | .readByte off => ['R', '1', ' '] ++ hexText 4 off.toNat
  | .readWord off => ['R', '4', ' '] ++ hexText 4 off.toNat
  | .writeByte off v => ['W', '1', ' '] ++ hexText 4 off.toNat ++ [' '] ++ hexText 2 v.toNat
  | .writeWord off w => ['W', '4', ' '] ++ hexText 4 off.toNat ++ [' '] ++ hexText 8 w.toNat

/-- The offset and data fields of a write tuple, with `d` digits of data. -/
def writeFields (d : Nat) (cs : List Char) : Option (Nat × Nat) :=
  match hexField 4 (cs.take 4), cs.drop 4 with
  | some off, ' ' :: data =>
    match hexField d data with
    | some v => some (off, v)
    | none => none
  | _, _ => none

/-- The access a tuple's text stands for, or none where the text is no tuple. -/
def parseTuple : List Char → Option HostAccess
  | 'R' :: '1' :: ' ' :: cs => (hexField 4 cs).map fun off => .readByte (BitVec.ofNat 16 off)
  | 'R' :: '4' :: ' ' :: cs => (hexField 4 cs).map fun off => .readWord (BitVec.ofNat 16 off)
  | 'W' :: '1' :: ' ' :: cs =>
    (writeFields 2 cs).map fun f => .writeByte (BitVec.ofNat 16 f.1) (BitVec.ofNat 8 f.2)
  | 'W' :: '4' :: ' ' :: cs =>
    (writeFields 8 cs).map fun f => .writeWord (BitVec.ofNat 16 f.1) (BitVec.ofNat 32 f.2)
  | _ => none

/-! ### The assembly as text (R66, R67) -/

/-- Splits a line at blanks and commas into its non-empty words; `cur` is the word being read, backwards. -/
def asmWords (cur : List Char) : List Char → List (List Char)
  | [] => if cur.isEmpty then [] else [cur.reverse]
  | c :: cs =>
    if c = ' ' ∨ c = ',' then
      if cur.isEmpty then asmWords [] cs else cur.reverse :: asmWords [] cs
    else asmWords (c :: cur) cs

/-- Reads decimal digits after those already read as `acc`. -/
def decNumberFrom : Nat → List Char → Option Nat
  | acc, [] => some acc
  | acc, c :: cs =>
    if 48 ≤ c.toNat ∧ c.toNat ≤ 57 then decNumberFrom (10 * acc + (c.toNat - 48)) cs else none

/-- A number: hexadecimal with `0x`, or decimal (R66). DESIGN CHOICE, unsafe: so too where the programs of 95_test_vectors.md
write bare hexadecimal (log entry 13). -/
def asmNumber : List Char → Option Nat
  | '0' :: 'x' :: c :: cs => hexNumberFrom 0 (c :: cs)
  | c :: cs => decNumberFrom 0 (c :: cs)
  | [] => none

/-- A number that fits in `n` bits; any other is refused (DESIGN CHOICE, safe: log entry 10). -/
def asmBits (n : Nat) (cs : List Char) : Option (BitVec n) :=
  match asmNumber cs with
  | some v => if v < 2 ^ n then some (BitVec.ofNat n v) else none
  | none => none

/-- A register's name (R66). -/
def regName : Reg → List Char
  | .cmd => ['C', 'M', 'D']
  | .status => ['S', 'T', 'A', 'T', 'U', 'S']
  | .inLen => ['I', 'N', '_', 'L', 'E', 'N']
  | .outLen => ['O', 'U', 'T', '_', 'L', 'E', 'N']
  | .cap => ['C', 'A', 'P']

/-- The register of a name. -/
def regOfName (cs : List Char) : Option Reg :=
  [Reg.cmd, .status, .inLen, .outLen, .cap].find? fun r => decide (regName r = cs)

/-- A command's mnemonic (R61). -/
def mnemonicText : Instr → List Char
  | .mapf => ['M', 'A', 'P', 'F']
  | .mapr => ['M', 'A', 'P', 'R']
  | .pack => ['P', 'A', 'C', 'K']
  | .unpack => ['U', 'N', 'P', 'A', 'C', 'K']
  | .encode => ['E', 'N', 'C', 'O', 'D', 'E']
  | .decode => ['D', 'E', 'C', 'O', 'D', 'E']

/-- The command of a mnemonic. -/
def instrOfName (cs : List Char) : Option Instr :=
  [Instr.mapf, .mapr, .pack, .unpack, .encode, .decode].find? fun i => decide (mnemonicText i = cs)

/-- The number before a closing bracket. -/
def bracketed (cs : List Char) : Option Nat :=
  if cs.getLast? = some ']' then asmNumber cs.dropLast else none

/-- A target's text: a register name, `IN[<i>]`, `OUT[<j>]` or `@<off>` (R66). -/
def parseTarget : List Char → Option AsmTarget
  | 'I' :: 'N' :: '[' :: cs => (bracketed cs).map .inByte
  | 'O' :: 'U' :: 'T' :: '[' :: cs => (bracketed cs).map .outByte
  | '@' :: cs => (asmBits 16 cs).map .raw
  | cs => (regOfName cs).map .reg

/-- The value of a word-wide write: a mnemonic, or a 32-bit number. -/
def parseAsmWord (cs : List Char) : Option AsmWord :=
  match instrOfName cs with
  | some i => some (.mnemonic i)
  | none => (asmBits 32 cs).map .number

/-- Keeps the forms R66 lists. -/
def onlyWellFormed : Option HostAsm → Option HostAsm
  | some a => if a.wellFormed then some a else none
  | none => none

/-- The instruction of a line's words. -/
def parseWords : List (List Char) → Option HostAsm
  | [['l', 'w'], t] => (parseTarget t).map .lw
  | [['l', 'b'], t] => (parseTarget t).map .lb
  | [['s', 'w'], t, v] =>
    match parseTarget t, parseAsmWord v with
    | some t, some v => some (.sw t v)
    | _, _ => none
  | [['s', 'b'], t, v] =>
    match parseTarget t, asmBits 8 v with
    | some t, some v => some (.sb t v)
    | _, _ => none
  | _ => none

/-- The assembly instruction a line of text stands for, or none where the line is none of R66's forms. -/
def parseAsm (line : List Char) : Option HostAsm := onlyWellFormed (parseWords (asmWords [] line))

/-- Reads every word of a list as a byte. DESIGN CHOICE, unsafe: by R66, so a bare `48` is decimal and a bare `D9` is no
number (log entry 13). -/
def parseBytes : List (List Char) → Option (List Byte)
  | [] => some []
  | w :: ws =>
    match asmBits 8 w, parseBytes ws with
    | some b, some bs => some (b :: bs)
    | _, _ => none

/-- The text between the quotes of a `loadstr`, where the line ends with the closing quote. -/
def quoted (cs : List Char) : Option (List Char) :=
  if cs.getLast? = some (Char.ofNat 34) then some cs.dropLast else none

/-- The pseudo-instruction a line of text stands for (R67). DESIGN CHOICE, safe: a `loadstr` line begins with that word, one
blank and the opening quote, and any other spacing there is refused; a `load` line may list no byte (log entry 10).
DESIGN CHOICE, unsafe: a `load` or `loadstr` of any length is read (log entry 14). -/
def parsePseudo (line : List Char) : Option HostPseudo :=
  if line.take 9 = ['l', 'o', 'a', 'd', 's', 't', 'r', ' ', Char.ofNat 34] then
    (quoted (line.drop 9)).map .loadstr
  else match asmWords [] line with
    | [['r', 'u', 'n'], c] => (parseAsmWord c).map .run
    | ['l', 'o', 'a', 'd'] :: ws => (parseBytes ws).map .load
    | [['d', 'u', 'm', 'p']] => some .dump
    | [['s', 't', 'a', 't', 'u', 's']] => some .status
    | _ => none

end Sys2Proof.Machine
end

