-- ==== Sys2Proof/Safety.lean ====
section
/-! DEFINITION. What counts as a sound state and a safe command, in the terms the statements use. -/

namespace Sys2Proof.Machine

/-- The invariant of the machine, from the statements the spec makes about every state. -/
structure State.Inv (s : State) : Prop where
  /-- IN_CAP is legal (R6). -/
  configLegal : s.config.legal = true
  /-- IN_BUF is in canonical form, -/
  inBufWf : Memory.wf s.inBuf
  /-- and has no byte at or above IN_CAP (R21). -/
  inBufBound : ∀ c ∈ s.inBuf, c.1 < s.config.inCap
  /-- OUT_BUF is in canonical form, -/
  outBufWf : Memory.wf s.outBuf
  /-- and has no byte at or above OUT_CAP (R22). -/
  outBufBound : ∀ c ∈ s.outBuf, c.1 < outCap s.config
  /-- OUT_LEN.LEN ≤ OUT_CAP (R24). -/
  outLenBound : s.outLen.toNat ≤ outCap s.config
  /-- At most one STATUS bit is 1 (R25). -/
  statusOneBit : s.status = 0 ∨ s.status = 1 ∨ s.status = 2 ∨ s.status = 4
  /-- A raised condition leaves OUT_LEN = 0 (R165). -/
  conditionEmpty : s.status ≠ 0 → s.outLen = 0
  /-- OUT_BUF[0..OUT_LEN.LEN-1] hold results (R183), so the host can read them. -/
  outWritten : ∀ j < s.outLen.toNat, ∃ v, Memory.read s.outBuf j = some v
  /-- While reset is asserted, every item stands at its reset value (log entry 5). -/
  resetHeld : s.resetAsserted = true →
    s.inBuf = [] ∧ s.outBuf = [] ∧ s.inLen = 0 ∧ s.outLen = 0 ∧ s.status = 0

/-- The next command runs without a fault: its length is over the capacity, or its operand bytes are written (R181, R183). -/
def State.commandReady (s : State) : Prop :=
  s.config.inCap < s.inLen.toNat ∨ ∀ i < s.inLen.toNat, ∃ v, Memory.read s.inBuf i = some v

/-- What a command leaves alone: IN_BUF, IN_LEN, CAP, the reset input and the host port (R21, R23, R26). -/
structure SameOutsideOutputs (s t : State) : Prop where
  config : t.config = s.config
  inBuf : t.inBuf = s.inBuf
  inLen : t.inLen = s.inLen
  resetAsserted : t.resetAsserted = s.resetAsserted
  pending : t.pending = s.pending
  reads : t.reads = s.reads

/-- `t` is `s` after a raised condition with this STATUS: OUT_LEN is 0, and nothing else has changed (R165). -/
structure RaisedFrom (s : State) (status : BitVec 3) (t : State) : Prop where
  status : t.status = status
  outLen : t.outLen = 0
  outBuf : t.outBuf = s.outBuf
  others : SameOutsideOutputs s t

/-- The items of R31 stand at their reset values: every buffer byte unwritten, and the stored registers 0. -/
structure State.HasResetValues (s : State) : Prop where
  inBuf : ∀ i, Memory.read s.inBuf i = none
  outBuf : ∀ j, Memory.read s.outBuf j = none
  inLen : s.inLen = 0
  outLen : s.outLen = 0
  status : s.status = 0

/-- IN_BUF[0..IN_LEN.LEN-1] hold the bytes `b 0`, `b 1`, …, and their number is within the capacity. -/
def State.HoldsInput (s : State) (b : Nat → Byte) : Prop :=
  s.inLen.toNat ≤ s.config.inCap ∧ ∀ i < s.inLen.toNat, Memory.read s.inBuf i = some (b i)

/-- The host's next event is the access `a`, with reset not asserted; `rest` comes after it. -/
def State.Offers (s : State) (a : HostAccess) (rest : List HostEvent) : Prop :=
  s.resetAsserted = false ∧ s.pending = .access a :: rest

/-- `t'` is a state in which the host has copied the `n` results of `t` from OUT_BUF to IN_BUF and written IN_LEN with
`n`. Nothing else of `t'` matters to the next command (R36). -/
def CopiedBack (t t' : State) (n : Nat) : Prop :=
  t'.config = t.config ∧ t'.inLen.toNat = n ∧
    ∀ i < n, Memory.read t'.inBuf i = Memory.read t.outBuf i

/-- `k` steps, stopping at the first fault or refusal. -/
def run : Nat → State → Host.Outcome State Fault Refusal
  | 0, s => .next s
  | k + 1, s =>
    match step s with
    | .next t => run k t
    | .fault f => .fault f
    | .refused r => .refused r

/-- The next access reads an unwritten byte (R171): a host read of one, or a command with one among its operand bytes. -/
def State.ReadsUnwritten (s : State) : Prop :=
  (∃ i rest, s.Offers (.readByte (BitVec.ofNat 16 (0x1000 + i))) rest ∧
    i < 0x1000 ∧ i < s.config.inCap ∧ Memory.read s.inBuf i = none) ∨
  (∃ j rest, s.Offers (.readByte (BitVec.ofNat 16 (0x2000 + j))) rest ∧
    j < 0x1000 ∧ j < outCap s.config ∧ Memory.read s.outBuf j = none) ∨
  (∃ w i rest, s.Offers (.writeWord 0x0000 w) rest ∧ decodeWord w = .command i ∧
    s.inLen.toNat ≤ s.config.inCap ∧ ∃ k < s.inLen.toNat, Memory.read s.inBuf k = none)

end Sys2Proof.Machine
end

