-- ==== Sys2Proof/Certificates/Slice0/Obligations.lean ====
section
/-! DEFINITION. The statements about the CORE, in the order of OBLIGATIONS.json. The functions under `Sys2Proof.Spec`
are the spec's own formulas and tables, written apart from the model's definitions. -/

namespace Sys2Proof.Spec

open Sys2Proof.Machine

/-- The six legal command words (R61). -/
def commandWords : List Word :=
  [0x00000001, 0x00000002, 0x00000003, 0x00000004, 0x00000005, 0x00000006]

/-- The bytes of R103's loop, on unbounded integers (R9): `s` gives the CodePoints as numbers, `n` is their count. -/
def packByte (n : Nat) (s : Nat → Nat) (j : Nat) : Byte :=
  let i := j + j / 7
  let r := j % 7
  let b := if i + 1 < n then s (i + 1) else 0
  BitVec.ofNat 8 ((s i >>> r) ||| (b <<< (7 - r)))

/-- The septets of R123's loop, on unbounded integers (R9): `o` gives the octets as numbers, `m` is their count. -/
def windowSeptet (m : Nat) (o : Nat → Nat) (k : Nat) : Nat :=
  let a := 7 * k / 8
  let sh := 7 * k % 8
  let hi := if a + 1 < m then o (a + 1) else 0
  ((hi * 256 + o a) >>> sh) % 128

/-- Bit `x` of Stream(s): bit x mod 7 of septet ⌊x/7⌋ (R46). -/
def streamBit (s : Nat → CodePoint) (x : Nat) : Bool := (s (x / 7)).getLsbD (x % 7)

/-- Bit `x` of an octet sequence read as a bit string: bit x mod 8 of octet ⌊x/8⌋ (R46). -/
def octetBit (o : Nat → Byte) (x : Nat) : Bool := (o (x / 8)).getLsbD (x % 8)

/-- The safe subset: c in [0,127] and not in E (spec/00_scope.md, glossary). -/
def safeCharacter (c : Byte) : Bool := decide (c.toNat ≤ 127) && !excluded c.toNat

/-- The 40 members of E, in the order of the source's fixture T6 (R80). -/
def excludedCodes : List Nat :=
  [0, 1, 2, 3, 4, 5, 6, 7, 8, 9] ++ [0x0B, 0x0C] ++
    [0x0E, 0x0F, 0x10, 0x11, 0x12, 0x13, 0x14, 0x15, 0x16, 0x17, 0x18, 0x19, 0x1A, 0x1B, 0x1C, 0x1D, 0x1E, 0x1F] ++
    [0x5B, 0x5C, 0x5D, 0x5E, 0x5F] ++ [0x7B, 0x7C, 0x7D, 0x7E, 0x7F]

/-- Rows 0x5_ and 0x7_ of both tables end in five substituted codes; this is a row of sixteen of them. -/
def substitutedRow : List Nat := List.replicate 16 0x20

/-- Rows 0x0_ to 0x7_ of the forward table F, as spec/40_alphabet_map.md prints it. -/
def forwardTable : List Nat :=
  [0x20, 0x20, 0x20, 0x20, 0x20, 0x20, 0x20, 0x20, 0x20, 0x20, 0x0A, 0x20, 0x20, 0x0D, 0x20, 0x20] ++
  substitutedRow ++
  [0x20, 0x21, 0x22, 0x23, 0x02, 0x25, 0x26, 0x27, 0x28, 0x29, 0x2A, 0x2B, 0x2C, 0x2D, 0x2E, 0x2F] ++
  [0x30, 0x31, 0x32, 0x33, 0x34, 0x35, 0x36, 0x37, 0x38, 0x39, 0x3A, 0x3B, 0x3C, 0x3D, 0x3E, 0x3F] ++
  [0x00, 0x41, 0x42, 0x43, 0x44, 0x45, 0x46, 0x47, 0x48, 0x49, 0x4A, 0x4B, 0x4C, 0x4D, 0x4E, 0x4F] ++
  [0x50, 0x51, 0x52, 0x53, 0x54, 0x55, 0x56, 0x57, 0x58, 0x59, 0x5A, 0x20, 0x20, 0x20, 0x20, 0x20] ++
  [0x60, 0x61, 0x62, 0x63, 0x64, 0x65, 0x66, 0x67, 0x68, 0x69, 0x6A, 0x6B, 0x6C, 0x6D, 0x6E, 0x6F] ++
  [0x70, 0x71, 0x72, 0x73, 0x74, 0x75, 0x76, 0x77, 0x78, 0x79, 0x7A, 0x20, 0x20, 0x20, 0x20, 0x20]

/-- The reverse table Rv, as spec/40_alphabet_map.md prints it. -/
def reverseTable : List Nat :=
  [0x40, 0x20, 0x24, 0x20, 0x20, 0x20, 0x20, 0x20, 0x20, 0x20, 0x0A, 0x20, 0x20, 0x0D, 0x20, 0x20] ++
  substitutedRow ++
  [0x20, 0x21, 0x22, 0x23, 0x24, 0x25, 0x26, 0x27, 0x28, 0x29, 0x2A, 0x2B, 0x2C, 0x2D, 0x2E, 0x2F] ++
  [0x30, 0x31, 0x32, 0x33, 0x34, 0x35, 0x36, 0x37, 0x38, 0x39, 0x3A, 0x3B, 0x3C, 0x3D, 0x3E, 0x3F] ++
  [0x40, 0x41, 0x42, 0x43, 0x44, 0x45, 0x46, 0x47, 0x48, 0x49, 0x4A, 0x4B, 0x4C, 0x4D, 0x4E, 0x4F] ++
  [0x50, 0x51, 0x52, 0x53, 0x54, 0x55, 0x56, 0x57, 0x58, 0x59, 0x5A, 0x20, 0x20, 0x20, 0x20, 0x20] ++
  [0x60, 0x61, 0x62, 0x63, 0x64, 0x65, 0x66, 0x67, 0x68, 0x69, 0x6A, 0x6B, 0x6C, 0x6D, 0x6E, 0x6F] ++
  [0x70, 0x71, 0x72, 0x73, 0x74, 0x75, 0x76, 0x77, 0x78, 0x79, 0x7A, 0x20, 0x20, 0x20, 0x20, 0x20]

/-- `t` is `s` after a command that completed without a condition: it left `len` results, of which `result` gives each;
OUT_BUF bytes above them, and everything outside the outputs, are as before (R22, R166). -/
structure Completed (s t : State) (len : Nat) (result : Nat → Byte) : Prop where
  outLen : t.outLen.toNat = len
  status : t.status = 0
  results : ∀ j < len, Memory.read t.outBuf j = some (result j)
  above : ∀ j, len ≤ j → Memory.read t.outBuf j = Memory.read s.outBuf j
  others : SameOutsideOutputs s t

end Sys2Proof.Spec

open Sys2Proof Sys2Proof.Machine Sys2Proof.Spec

/-! ### Reset and idling -/

/-- R31: what reset leaves, at every legal IN_CAP, and the default of R6. -/
def Obligations.AfterResetHoldsResetValues : Prop :=
  (∀ c : Config, c.legal = true →
    (State.afterReset c).HasResetValues ∧
    readReg (State.afterReset c) .inLen = 0 ∧ readReg (State.afterReset c) .outLen = 0 ∧
    readReg (State.afterReset c) .status = 0 ∧ readReg (State.afterReset c) .cmd = 0 ∧
    (readReg (State.afterReset c) .cap).extractLsb' 16 16 = BitVec.ofNat 16 (8 * c.inCap / 7) ∧
    (readReg (State.afterReset c) .cap).extractLsb' 0 16 = BitVec.ofNat 16 c.inCap) ∧
  State.reset = State.afterReset Config.default ∧ readReg State.reset .cap = 0x010000E0

/-- R180: while reset is asserted an access changes no item of state and returns nothing; after release every item holds its
reset value, whatever came before, a CMD write that reset interrupted included. What becomes of an access that is not
accepted (it leaves the queue) is the model's choice, log entry 5, and is not stated. -/
def Obligations.ResetInputHoldsAndClearsTheCore : Prop :=
  (∀ s a rest, s.resetAsserted = true → s.pending = .access a :: rest →
    ∃ t, step s = .next t ∧ t = { s with pending := t.pending }) ∧
  (∀ s rest, s.resetAsserted = true → s.pending = .releaseReset :: rest →
    ∃ t, step s = .next t ∧ t.HasResetValues ∧ t.resetAsserted = false ∧ t.config = s.config) ∧
  (∀ s e rest, (e = .assertReset ∨ ∃ w, e = .assertResetDuring w) → s.pending = e :: .releaseReset :: rest →
    ∃ t u, step s = .next t ∧ t.resetAsserted = true ∧ t.reads = s.reads ∧
      step t = .next u ∧ u.HasResetValues ∧ u.resetAsserted = false ∧ u.config = s.config)

/-- R182: with nothing from the outside, the CORE stays as it is; after reset nothing is pending. (The queue `pending` is the
model's own form of the host, log entry 3.) -/
def Obligations.IdleCoreStartsNothing : Prop :=
  (∀ s : State, s.pending = [] → step s = .next s) ∧ State.reset.pending = [] ∧ step State.reset = .next State.reset

/-! ### Decoding -/

/-- R61: each word of the opcode map is its command. -/
def Obligations.OpcodeMapWordsDecode : Prop :=
  decodeWord 0x00000001 = .command .mapf ∧ decodeWord 0x00000002 = .command .mapr ∧
  decodeWord 0x00000003 = .command .pack ∧ decodeWord 0x00000004 = .command .unpack ∧
  decodeWord 0x00000005 = .command .encode ∧ decodeWord 0x00000006 = .command .decode ∧
  ∀ w i, decodeWord w = .command i → w ∈ commandWords

/-- Decoding and encoding agree in both directions, over every 32-bit word. -/
def Obligations.DecodeAndEncodeAgree : Prop :=
  (∀ i : Instr, i.wellFormed = true → decodeWord (encode i) = .command i) ∧
  ∀ (w : Word) (i : Instr), decodeWord w = .command i → w = encode i ∧ i.wellFormed = true

/-- R62 and R163: every word outside the table is illegal, and writing it to CMD raises IllegalCommand, whatever the
buffers hold. -/
def Obligations.IllegalWordRaisesIllegalCommand : Prop :=
  ∀ w : Word, w ∉ commandWords →
    decodeWord w = .illegal ∧
    ∀ s rest, s.Offers (.writeWord 0x0000 w) rest →
      ∃ t, step s = .next t ∧ RaisedFrom { s with pending := rest } 4 t

/-! ### The step -/

/-- R27: a 32-bit write to CMD starts the command it decodes to, or raises IllegalCommand; a read of CMD returns 0 and has no
effect. -/
def Obligations.StepRunsTheCommandWrittenToCmd : Prop :=
  (∀ s w i rest, s.Offers (.writeWord 0x0000 w) rest → decodeWord w = .command i →
    step s = exec i { s with pending := rest }) ∧
  (∀ s w rest, s.Offers (.writeWord 0x0000 w) rest → decodeWord w = .illegal →
    ∃ t, step s = .next t ∧ RaisedFrom { s with pending := rest } 4 t) ∧
  ∀ s rest, s.Offers (.readWord 0x0000) rest →
    step s = .next { s with pending := rest, reads := .word 0x00000000 :: s.reads }

/-- An opcode-table word placed as the next event is decoded to its command, and the next step runs it. -/
def Obligations.TableWordRunsAsTheNextStep : Prop :=
  ∀ (s : State) (i : Instr),
    decodeTableWord 32 (encode i).toNat = some i ∧
    step (s.withFetchWord 32 (encode i).toNat) = exec i { s with resetAsserted := false }

/-! ### Registers -/

/-- R23: a write of IN_LEN stores w[15:0] and changes nothing else, a read returns {16'b0, LEN}, and no command writes it. -/
def Obligations.InLenStoresSixteenBits : Prop :=
  (∀ s w rest, s.Offers (.writeWord 0x0008 w) rest →
    ∃ t, step s = .next t ∧ t.inLen.toNat = w.toNat % 2 ^ 16 ∧ t = { s with pending := rest, inLen := t.inLen }) ∧
  (∀ s rest, s.Offers (.readWord 0x0008) rest →
    ∃ v : Word, step s = .next { s with pending := rest, reads := .word v :: s.reads } ∧ v.toNat = s.inLen.toNat) ∧
  ∀ i s t, exec i s = .next t → t.inLen = s.inLen

/-- R24, R25, R28: a write to STATUS, OUT_LEN or CAP has no effect, and the reserved bits of STATUS and OUT_LEN read 0. -/
def Obligations.ReadOnlyRegistersIgnoreWrites : Prop :=
  (∀ s w off rest, off = 0x0004 ∨ off = 0x000C ∨ off = 0x0010 → s.Offers (.writeWord off w) rest →
    step s = .next { s with pending := rest }) ∧
  (∀ s rest, s.Offers (.readWord 0x0004) rest →
    ∃ v : Word, step s = .next { s with pending := rest, reads := .word v :: s.reads } ∧ v.toNat = s.status.toNat) ∧
  ∀ s rest, s.Offers (.readWord 0x000C) rest →
    ∃ v : Word, step s = .next { s with pending := rest, reads := .word v :: s.reads } ∧ v.toNat = s.outLen.toNat

/-- R26: CAP reads {OUT_CAP, IN_CAP} at every legal IN_CAP, and a write to it has no effect. -/
def Obligations.CapReadsTheCapacities : Prop :=
  (∀ s rest, s.config.legal = true → s.Offers (.readWord 0x0010) rest →
    ∃ v : Word, step s = .next { s with pending := rest, reads := .word v :: s.reads } ∧
      (v.extractLsb' 16 16).toNat = 8 * s.config.inCap / 7 ∧ (v.extractLsb' 0 16).toNat = s.config.inCap) ∧
  ∀ s w rest, s.Offers (.writeWord 0x0010 w) rest → step s = .next { s with pending := rest }

/-! ### The address map -/

/-- R44: word-wide accesses anywhere but at the five register offsets, and byte-wide accesses to the REG window or to 0x3000 and
above, read 0 or have no effect, and touch nothing. -/
def Obligations.UnsupportedAccessesReadZeroOrDoNothing : Prop :=
  (∀ s (off : Offset) rest,
    off ∉ [(0x0000 : Offset), 0x0004, 0x0008, 0x000C, 0x0010] →
    (s.Offers (.readWord off) rest →
      step s = .next { s with pending := rest, reads := .word 0 :: s.reads }) ∧
    ∀ w, s.Offers (.writeWord off w) rest → step s = .next { s with pending := rest }) ∧
  ∀ s (off : Offset) rest, off.toNat < 0x1000 ∨ 0x3000 ≤ off.toNat →
    (s.Offers (.readByte off) rest →
      step s = .next { s with pending := rest, reads := .byte 0 :: s.reads }) ∧
    ∀ v, s.Offers (.writeByte off v) rest → step s = .next { s with pending := rest }

/-- R42: byte i of the IN window is IN_BUF[i] below IN_CAP (an unwritten byte is the fault of R37); at or above it a read returns 0 and a write has no effect; any
other width is unsupported there. -/
def Obligations.InWindowReachesInBuf : Prop :=
  ∀ s (i : Nat) rest, i < 0x1000 →
    (∀ v, s.Offers (.writeByte (BitVec.ofNat 16 (0x1000 + i)) v) rest →
      ∃ t, step s = .next t ∧ t = { s with pending := rest, inBuf := t.inBuf } ∧
        (i < s.config.inCap → Memory.read t.inBuf i = some v) ∧
        (s.config.inCap ≤ i → t.inBuf = s.inBuf) ∧
        ∀ k, k ≠ i → Memory.read t.inBuf k = Memory.read s.inBuf k) ∧
    (s.Offers (.readByte (BitVec.ofNat 16 (0x1000 + i))) rest →
      (∀ v, i < s.config.inCap → Memory.read s.inBuf i = some v →
        step s = .next { s with pending := rest, reads := .byte v :: s.reads }) ∧
      (i < s.config.inCap → Memory.read s.inBuf i = none → step s = .fault .uninitRead) ∧
      (s.config.inCap ≤ i →
        step s = .next { s with pending := rest, reads := .byte 0x00 :: s.reads })) ∧
    (s.Offers (.readWord (BitVec.ofNat 16 (0x1000 + i))) rest →
      step s = .next { s with pending := rest, reads := .word 0 :: s.reads }) ∧
    ∀ w, s.Offers (.writeWord (BitVec.ofNat 16 (0x1000 + i)) w) rest → step s = .next { s with pending := rest }

/-- R43: byte j of the OUT window is OUT_BUF[j] below OUT_CAP (an unwritten byte is the fault of R37); at or above it a read returns 0; every host write there, of
either width, has no effect. -/
def Obligations.OutWindowIsReadOnly : Prop :=
  ∀ s (j : Nat) rest, j < 0x1000 →
    (∀ v, s.Offers (.writeByte (BitVec.ofNat 16 (0x2000 + j)) v) rest → step s = .next { s with pending := rest }) ∧
    (∀ w, s.Offers (.writeWord (BitVec.ofNat 16 (0x2000 + j)) w) rest → step s = .next { s with pending := rest }) ∧
    (s.Offers (.readByte (BitVec.ofNat 16 (0x2000 + j))) rest →
      (∀ v, j < 8 * s.config.inCap / 7 → Memory.read s.outBuf j = some v →
        step s = .next { s with pending := rest, reads := .byte v :: s.reads }) ∧
      (j < 8 * s.config.inCap / 7 → Memory.read s.outBuf j = none → step s = .fault .uninitRead) ∧
      (8 * s.config.inCap / 7 ≤ j →
        step s = .next { s with pending := rest, reads := .byte 0x00 :: s.reads })) ∧
    (s.Offers (.readWord (BitVec.ofNat 16 (0x2000 + j))) rest →
      step s = .next { s with pending := rest, reads := .word 0 :: s.reads })

/-- R54: a host read, of any offset and width, changes nothing but what it returns; STATUS is not cleared by reading it. -/
def Obligations.HostReadsHaveNoSideEffect : Prop :=
  ∀ s (off : Offset) a rest t, a = .readByte off ∨ a = .readWord off → s.Offers a rest → step s = .next t →
    ∃ d, t = { s with pending := rest, reads := d :: s.reads }

/-- R185: after a command, no host access but another CMD write changes OUT_BUF, OUT_LEN or STATUS; every host write but a CMD
write completes; and reading a result again is always safe. -/
def Obligations.ResultsStayUntilTheNextCommand : Prop :=
  (∀ s a rest t, s.Offers a rest → (∀ w, a ≠ .writeWord 0x0000 w) → step s = .next t →
    t.outBuf = s.outBuf ∧ t.outLen = s.outLen ∧ t.status = s.status ∧ t.config = s.config) ∧
  (∀ s (off : Offset) v rest, s.Offers (.writeByte off v) rest → ∃ t, step s = .next t) ∧
  (∀ s (off : Offset) w rest, off ≠ 0x0000 → s.Offers (.writeWord off w) rest → ∃ t, step s = .next t) ∧
  ∀ s (j : Nat) rest, s.Inv → j < s.outLen.toNat →
    s.Offers (.readByte (BitVec.ofNat 16 (0x2000 + j))) rest →
    ∃ v, Memory.read s.outBuf j = some v ∧
      step s = .next { s with pending := rest, reads := .byte v :: s.reads }

/-- R49: a read returns the value the most recent earlier write left: after a host write of IN_BUF[i], reading IN_BUF[k] gives
the new value for k = i and the old one for every other k. -/
def Obligations.HostReadAfterWriteReturnsTheLatest : Prop :=
  ∀ s (i k : Nat) v u rest, i < s.config.inCap → k < s.config.inCap → i < 0x1000 → k < 0x1000 →
    (i ≠ k → Memory.read s.inBuf k = some u) →
    s.Offers (.writeByte (BitVec.ofNat 16 (0x1000 + i)) v)
      (.access (.readByte (BitVec.ofNat 16 (0x1000 + k))) :: rest) →
    ∃ t t', step s = .next t ∧ step t = .next t' ∧
      t'.reads = .byte (if i = k then v else u) :: s.reads ∧ t'.pending = rest

/-- R171: a step takes the fault UninitRead exactly when the next access reads an unwritten byte; every other step, of every
state, has a next state. -/
def Obligations.StepStopsOnlyOnAnUnwrittenRead : Prop :=
  ∀ s : State,
    (s.ReadsUnwritten → step s = .fault .uninitRead) ∧
    (¬ s.ReadsUnwritten → ∃ t, step s = .next t)

/-! ### The commands -/

/-- R86. -/
def Obligations.MapfMapsCharactersToCodePoints : Prop :=
  (∀ s, s.config.inCap < s.inLen.toNat → ∃ t, exec .mapf s = .next t ∧ RaisedFrom s 2 t) ∧
  ∀ s (c : Nat → Byte), s.HoldsInput c →
    ∃ t, exec .mapf s = .next t ∧
      Completed s t s.inLen.toNat (fun i => (toCodePoint (c i)).setWidth 8)

/-- R87. -/
def Obligations.MaprMapsCodePointsToCharacters : Prop :=
  (∀ s, s.config.inCap < s.inLen.toNat → ∃ t, exec .mapr s = .next t ∧ RaisedFrom s 2 t) ∧
  ∀ s (b : Nat → Byte), s.HoldsInput b →
    ∃ t, exec .mapr s = .next t ∧
      Completed s t s.inLen.toNat (fun i => toCharacter (BitVec.ofNat 7 ((b i).toNat % 128)))

/-- R103. -/
def Obligations.PackWritesTheByteFormula : Prop :=
  (∀ s, s.config.inCap < s.inLen.toNat → ∃ t, exec .pack s = .next t ∧ RaisedFrom s 2 t) ∧
  ∀ s (b : Nat → Byte), s.HoldsInput b →
    ∃ t, exec .pack s = .next t ∧
      Completed s t (s.inLen.toNat - s.inLen.toNat / 8)
        (packByte s.inLen.toNat (fun i => (b i).toNat % 128))

/-- R123. -/
def Obligations.UnpackWritesTheWindowFormula : Prop :=
  (∀ s, s.config.inCap < s.inLen.toNat → ∃ t, exec .unpack s = .next t ∧ RaisedFrom s 2 t) ∧
  (∀ s (o : Nat → Byte), s.HoldsInput o → s.inLen = 1 → (o 0).getLsbD 7 = true →
    ∃ t, exec .unpack s = .next t ∧ RaisedFrom s 1 t) ∧
  ∀ s (o : Nat → Byte), s.config.legal = true → s.HoldsInput o → ¬ (s.inLen = 1 ∧ (o 0).getLsbD 7 = true) →
    ∃ t, exec .unpack s = .next t ∧
      Completed s t (8 * s.inLen.toNat / 7)
        (fun k => BitVec.ofNat 8 (windowSeptet s.inLen.toNat (fun i => (o i).toNat) k))

/-- R140. -/
def Obligations.EncodeMapsThenPacks : Prop :=
  (∀ s, s.config.inCap < s.inLen.toNat → ∃ t, exec .encode s = .next t ∧ RaisedFrom s 2 t) ∧
  ∀ s (c : Nat → Byte), s.HoldsInput c →
    ∃ t, exec .encode s = .next t ∧
      Completed s t (s.inLen.toNat - s.inLen.toNat / 8)
        (packByte s.inLen.toNat (fun i => (toCodePoint (c i)).toNat))

/-- R141. -/
def Obligations.DecodeUnpacksThenMaps : Prop :=
  (∀ s, s.config.inCap < s.inLen.toNat → ∃ t, exec .decode s = .next t ∧ RaisedFrom s 2 t) ∧
  (∀ s (o : Nat → Byte), s.HoldsInput o → s.inLen = 1 → (o 0).getLsbD 7 = true →
    ∃ t, exec .decode s = .next t ∧ RaisedFrom s 1 t) ∧
  ∀ s (o : Nat → Byte), s.config.legal = true → s.HoldsInput o → ¬ (s.inLen = 1 ∧ (o 0).getLsbD 7 = true) →
    ∃ t, exec .decode s = .next t ∧
      Completed s t (8 * s.inLen.toNat / 7)
        (fun k => toCharacter (BitVec.ofNat 7 (windowSeptet s.inLen.toNat (fun i => (o i).toNat) k)))

/-- A command has a next state exactly when its length is over the capacity or its operand bytes are all written (R37,
R181). -/
def Obligations.CommandRunsExactlyWhenReady : Prop :=
  ∀ i s, (s.commandReady ↔ ∃ t, exec i s = .next t) ∧ (¬ s.commandReady ↔ exec i s = .fault .uninitRead)

/-- The frame of all six commands, MAPF, MAPR, PACK, UNPACK, ENCODE and DECODE: IN_BUF, IN_LEN, CAP, the reset input and the
host port are unchanged; so is every OUT_BUF byte at or above the new OUT_LEN.LEN; every byte below it is written; and the
new OUT_LEN.LEN is at most OUT_CAP (R21, R22, R23). STATUS and OUT_LEN are the two registers a command writes. -/
def Obligations.CommandsChangeOnlyTheirOutputs : Prop :=
  ∀ i s t, s.config.legal = true → exec i s = .next t →
    SameOutsideOutputs s t ∧
    (∀ j, t.outLen.toNat ≤ j → Memory.read t.outBuf j = Memory.read s.outBuf j) ∧
    (∀ j < t.outLen.toNat, ∃ v, Memory.read t.outBuf j = some v) ∧
    t.outLen.toNat ≤ 8 * s.config.inCap / 7

/-! ### Conditions -/

/-- R161: InputError is raised by UNPACK and DECODE when m = 1 and IN_BUF[0] > 127, and by nothing else. -/
def Obligations.InputErrorExactlyOnOneHighOctet : Prop :=
  ∀ i s, 1 ≤ s.config.inCap →
    ((∃ t, exec i s = .next t ∧ t.status = 1) ↔
      (i = .unpack ∨ i = .decode) ∧ s.inLen = 1 ∧ ∃ b, Memory.read s.inBuf 0 = some b ∧ 127 < b.toNat)

/-- R162: LengthOverflow is raised by every legal command whose IN_LEN.LEN exceeds IN_CAP, with the empty result, whatever
IN_BUF holds, and by no other. -/
def Obligations.LengthOverflowExactlyAboveCapacity : Prop :=
  ∀ i s,
    (s.config.inCap < s.inLen.toNat → ∃ t, exec i s = .next t ∧ RaisedFrom s 2 t) ∧
    ∀ t, exec i s = .next t → t.status = 2 → s.config.inCap < s.inLen.toNat

/-- R164: on a CMD write the checks are made in a fixed order, and the first that applies is the only one reported; a
command that passes them all runs, and completes without a condition. -/
def Obligations.ConditionsAreCheckedInOrder : Prop :=
  ∀ s w rest, s.Offers (.writeWord 0x0000 w) rest →
    (w ∉ commandWords → ∃ t, step s = .next t ∧ RaisedFrom { s with pending := rest } 4 t) ∧
    (w ∈ commandWords → s.config.inCap < s.inLen.toNat →
      ∃ t, step s = .next t ∧ RaisedFrom { s with pending := rest } 2 t) ∧
    (w = 0x00000004 ∨ w = 0x00000006 → s.inLen.toNat ≤ s.config.inCap → s.inLen = 1 →
      ∀ b, Memory.read s.inBuf 0 = some b → b.getLsbD 7 = true →
      ∃ t, step s = .next t ∧ RaisedFrom { s with pending := rest } 1 t) ∧
    (w ∈ commandWords → s.inLen.toNat ≤ s.config.inCap →
      ¬ ((w = 0x00000004 ∨ w = 0x00000006) ∧ s.inLen = 1 ∧
        ∃ b, Memory.read s.inBuf 0 = some b ∧ b.getLsbD 7 = true) →
      (∀ i < s.inLen.toNat, ∃ v, Memory.read s.inBuf i = some v) →
      ∃ i t, w = encode i ∧ step s = .next t ∧ exec i { s with pending := rest } = .next t ∧ t.status = 0)

/-- R166: a command replaces STATUS and OUT_LEN and reads neither: whatever they held, the outcome is the same; so STATUS never
accumulates. -/
def Obligations.CommandsIgnoreOldStatusAndOutLen : Prop :=
  ∀ w s (status : BitVec 3) (outLen : BitVec 16),
    startCommand w { s with status := status, outLen := outLen } = startCommand w s

/-- R36: a command's outputs are a function of the CMD word, IN_LEN.LEN, IN_BUF[0..IN_LEN.LEN-1] and IN_CAP alone. -/
def Obligations.OutputsDependOnOperandsAlone : Prop :=
  ∀ w s s', s'.config = s.config → s'.inLen = s.inLen →
    (∀ i < s.inLen.toNat, Memory.read s'.inBuf i = Memory.read s.inBuf i) →
    (startCommand w s = .fault .uninitRead ∧ startCommand w s' = .fault .uninitRead) ∨
    ∃ t t', startCommand w s = .next t ∧ startCommand w s' = .next t' ∧
      t'.outLen = t.outLen ∧ t'.status = t.status ∧
      ∀ j < t.outLen.toNat, Memory.read t'.outBuf j = Memory.read t.outBuf j

/-- R54: running the same command again on unchanged IN_BUF and IN_LEN changes nothing at all. -/
def Obligations.RepeatedCommandChangesNothing : Prop :=
  ∀ i s t, s.Inv → exec i s = .next t → exec i t = .next t

/-! ### The maps -/

/-- R80: E has exactly the 40 members listed, and 0x0A and 0x0D are not among them. -/
def Obligations.ExcludedSetHasFortyMembers : Prop :=
  (∀ c : Byte, excluded c.toNat = decide (c.toNat ∈ excludedCodes)) ∧ excludedCodes.length = 40 ∧
  excluded 0x0A = false ∧ excluded 0x0D = false

/-- R81: F is the forward table, and 0x20 from 0x80 on. -/
def Obligations.ForwardMapIsTheTable : Prop :=
  ∀ c : Byte, (toCodePoint c).toNat = forwardTable.getD c.toNat 0x20

/-- R82: Rv is the reverse table. -/
def Obligations.ReverseMapIsTheTable : Prop :=
  ∀ p : CodePoint, some (toCharacter p).toNat = reverseTable[p.toNat]?

/-- R83: the ranges of the maps. -/
def Obligations.MapRanges : Prop :=
  (∀ c : Byte, (toCodePoint c).toNat ≤ 127 ∧ (excluded c.toNat = true → toCodePoint c = 0x20)) ∧
  (∀ p : CodePoint, 0x0A ≤ (toCharacter p).toNat ∧ (toCharacter p).toNat ≤ 0x7A) ∧
  ∀ v : Byte, (∃ p, toCharacter p = v) ↔
    v = 0x0A ∨ v = 0x0D ∨ (0x20 ≤ v.toNat ∧ v.toNat ≤ 0x5A) ∨ (0x60 ≤ v.toNat ∧ v.toNat ≤ 0x7A)

/-- R84: Rv(F(c)) = c on the 88 codes of the safe subset, and space on every other code but space itself. -/
def Obligations.ReverseOfForward : Prop :=
  (∀ c : Byte, safeCharacter c = true → toCharacter (toCodePoint c) = c) ∧
  (∀ c : Byte, safeCharacter c = false → toCharacter (toCodePoint c) = 0x20) ∧
  (∀ c : Byte, toCharacter (toCodePoint c) = c → safeCharacter c = true) ∧
  ((List.range 256).filter fun c => safeCharacter (BitVec.ofNat 8 c)).length = 88

/-- R85: where the maps fail to be inverse. -/
def Obligations.ForwardOfReverse : Prop :=
  (∀ p : CodePoint, toCodePoint (toCharacter p) = p ↔
    (excluded p.toNat = false ∨ p = 0x00 ∨ p = 0x02) ∧ p ≠ 0x24 ∧ p ≠ 0x40) ∧
  toCodePoint (toCharacter 0x24) = 0x02 ∧ toCodePoint (toCharacter 0x40) = 0x00 ∧
  toCodePoint 0x00 = 0x20 ∧ toCodePoint 0x20 = 0x20 ∧
  (∀ c : Byte, excluded c.toNat = true ∨ 0x80 ≤ c.toNat → toCodePoint c = 0x20) ∧
  toCharacter 0x00 = 0x40 ∧ toCharacter 0x40 = 0x40 ∧ toCharacter 0x02 = 0x24 ∧ toCharacter 0x24 = 0x24 ∧
  ∀ p : CodePoint, excluded p.toNat = true → p ≠ 0x00 → p ≠ 0x02 → toCharacter p = 0x20

/-! ### Packing and unpacking -/

/-- R100: the packed length. -/
def Obligations.PackedLengthLaw : Prop :=
  (∀ s : List CodePoint, (packOctets s).length = s.length - s.length / 8) ∧
  (∀ q r, r ≤ 7 → packedLength (8 * q + r) = 7 * q + r) ∧
  ∀ n, packedLength n = (7 * n + 7) / 8

/-- R120 and R124: the unpacked count depends on the number of octets alone. -/
def Obligations.UnpackedCountLaw : Prop :=
  (∀ o : List Byte, (unpackOctets o).length = 8 * o.length / 7) ∧
  ∀ q t, t ≤ 6 → unpackedCount (7 * q + t) = 8 * q + t

/-- R46 and R102: the octets PACK leaves, read as a bit string, are Stream(s) and then zero fill bits. -/
def Obligations.PackLeavesTheSeptetStream : Prop :=
  ∀ s (b : Nat → Byte), s.HoldsInput b →
    ∃ t, exec .pack s = .next t ∧ 8 * t.outLen.toNat = 7 * s.inLen.toNat + s.inLen.toNat % 8 ∧
      ∀ j < t.outLen.toNat, ∃ v, Memory.read t.outBuf j = some v ∧
        ∀ x < 8, v.getLsbD x =
          (decide (8 * j + x < 7 * s.inLen.toNat) && streamBit (fun i => (b i).setWidth 7) (8 * j + x))

/-- R121: CodePoint k of UNPACK is bits 7k to 7k+6 of the octets' bit string, and bit 7 of its byte is 0. -/
def Obligations.UnpackReadsTheSeptetStream : Prop :=
  ∀ s (o : Nat → Byte), s.config.legal = true → s.HoldsInput o → ¬ (s.inLen = 1 ∧ 127 < (o 0).toNat) →
    ∃ t, exec .unpack s = .next t ∧ t.outLen.toNat = 8 * s.inLen.toNat / 7 ∧
      ∀ k < t.outLen.toNat, ∃ v, Memory.read t.outBuf k = some v ∧
        v.getLsbD 7 = false ∧ ∀ x < 7, v.getLsbD x = octetBit o (7 * k + x)

/-- R101: where each septet lands. -/
def Obligations.SeptetsLandInTheirOctets : Prop :=
  ∀ (s : List CodePoint) (k : Nat), k < s.length →
    (k % 8 = 0 → ∀ b < 7, ((packOctets s).getD (7 * k / 8) 0).getLsbD b = (s.getD k 0).getLsbD b) ∧
    (∀ b < k % 8,
      ((packOctets s).getD (7 * k / 8) 0).getLsbD (8 - k % 8 + b) = (s.getD k 0).getLsbD b) ∧
    (1 ≤ k % 8 → ∀ b, k % 8 ≤ b → b < 7 →
      7 * k / 8 + 1 < (packOctets s).length ∧
      ((packOctets s).getD (7 * k / 8 + 1) 0).getLsbD (b - k % 8) = (s.getD k 0).getLsbD b)

/-- R125: the tail bits reach no CodePoint, and pack(unpack(o)) = o exactly when every tail bit of o is 0. -/
def Obligations.TailBitsAreIgnored : Prop :=
  (∀ o o' : List Byte, o'.length = o.length →
    (∀ x < 8 * o.length - o.length % 7, octetBit (o'.getD · 0) x = octetBit (o.getD · 0) x) →
    unpackOctets o' = unpackOctets o) ∧
  ∀ o : List Byte, packOctets (unpackOctets o) = o ↔
    ∀ x, 8 - o.length % 7 ≤ x → x < 8 → (o.getD (o.length - 1) 0).getLsbD x = false

/-- R126: unpacking a packed sequence gives it back, with one zero CodePoint more when n mod 8 = 7; and the length laws. -/
def Obligations.UnpackOfPackGivesTheSequenceBack : Prop :=
  (∀ s : List CodePoint, unpackOctets (packOctets s) = s ++ (if s.length % 8 = 7 then [0x00] else [])) ∧
  (∀ m, packedLength (unpackedCount m) = m) ∧
  ∀ n, unpackedCount (packedLength n) = if n % 8 = 7 then n + 1 else n

/-! ### The transcoder -/

/-- R142, first half: ENCODE leaves the same results as MAPF, the host's copy, and PACK. -/
def Obligations.EncodeEqualsMapfThenPack : Prop :=
  ∀ s, s.config.legal = true → s.commandReady → s.inLen.toNat ≤ s.config.inCap →
    ∃ v t, exec .encode s = .next v ∧ exec .mapf s = .next t ∧
      ∀ t', CopiedBack t t' s.inLen.toNat →
        ∃ u, exec .pack t' = .next u ∧ u.outLen = v.outLen ∧ u.status = v.status ∧
          ∀ j < v.outLen.toNat, Memory.read u.outBuf j = Memory.read v.outBuf j

/-- R142, second half: DECODE leaves the same results as UNPACK, the host's copy, and MAPR, where the N(m) CodePoints
fit IN_BUF (above IN_CAP the MAPR of the host's sequence raises LengthOverflow, R162: log entry 9); and where UNPACK raises
InputError, so does DECODE. -/
def Obligations.DecodeEqualsUnpackThenMapr : Prop :=
  ∀ s, s.config.legal = true → s.commandReady → s.inLen.toNat ≤ s.config.inCap →
    ∃ v t, exec .decode s = .next v ∧ exec .unpack s = .next t ∧ v.status = t.status ∧ v.outLen = t.outLen ∧
      (t.status = 0 → t.outLen.toNat ≤ s.config.inCap →
        ∀ t', CopiedBack t t' t.outLen.toNat →
          ∃ u, exec .mapr t' = .next u ∧ u.outLen = v.outLen ∧ u.status = v.status ∧
            ∀ j < v.outLen.toNat, Memory.read u.outBuf j = Memory.read v.outBuf j)

/-- R143: decoding an encoding gives the safe characters back, a space for every other, and a final '@' when n mod 8 = 7. -/
def Obligations.DecodeOfEncodeGivesTheTextBack : Prop :=
  ∀ s (c : Nat → Byte), s.config.legal = true → s.HoldsInput c → 1 ≤ s.inLen.toNat →
    ∃ t, exec .encode s = .next t ∧ t.outLen.toNat = s.inLen.toNat - s.inLen.toNat / 8 ∧
      ∀ t', CopiedBack t t' t.outLen.toNat →
        ∃ u, exec .decode t' = .next u ∧ u.status = 0 ∧
          u.outLen.toNat = (if s.inLen.toNat % 8 = 7 then s.inLen.toNat + 1 else s.inLen.toNat) ∧
          (∀ i < s.inLen.toNat,
            Memory.read u.outBuf i = some (if safeCharacter (c i) = true then c i else 0x20)) ∧
          (s.inLen.toNat % 8 = 7 → Memory.read u.outBuf s.inLen.toNat = some 0x40)

/-- R144: encoding a decoding gives m octets back; their meaningful bits are those of b where the CodePoint survives the
maps, and those of F(Rv(p)) where it does not; the tail bits are 0. The N(m) characters must fit IN_BUF (log entry 9). -/
def Obligations.EncodeOfDecodeGivesTheOctetsBack : Prop :=
  ∀ s (o : Nat → Byte), s.config.legal = true → s.HoldsInput o → ¬ (s.inLen = 1 ∧ 127 < (o 0).toNat) →
    8 * s.inLen.toNat / 7 ≤ s.config.inCap →
    ∃ t, exec .decode s = .next t ∧ t.outLen.toNat = 8 * s.inLen.toNat / 7 ∧
      ∀ t', CopiedBack t t' t.outLen.toNat →
        ∃ u, exec .encode t' = .next u ∧ u.status = 0 ∧ u.outLen = s.inLen ∧
          ∀ j < s.inLen.toNat, ∃ v, Memory.read u.outBuf j = some v ∧ ∀ x < 8,
            let y := 8 * j + x
            let p : CodePoint := BitVec.ofNat 7 (windowSeptet s.inLen.toNat (fun i => (o i).toNat) (y / 7))
            v.getLsbD x =
              (if 7 * (8 * s.inLen.toNat / 7) ≤ y then false
               else if (excluded p.toNat = false ∨ p = 0x00 ∨ p = 0x02) ∧ p ≠ 0x24 ∧ p ≠ 0x40
                 then (o j).getLsbD x
               else (toCodePoint (toCharacter p)).getLsbD (y % 7))

/-! ### The invariant -/

/-- The invariant holds after reset, at every legal IN_CAP. -/
def Obligations.InvariantHoldsAfterReset : Prop :=
  State.reset.Inv ∧ ∀ c : Config, c.legal = true → (State.afterReset c).Inv

/-- Every step keeps the invariant: a legal and unchanged IN_CAP, both buffers in canonical form and within their capacities,
OUT_LEN within OUT_CAP, at most one STATUS bit, an empty result under a condition, and written results below OUT_LEN. -/
def Obligations.EveryStepKeepsTheInvariant : Prop :=
  ∀ s t, s.Inv → step s = .next t → t.Inv ∧ t.config = s.config

/-! ### Host programs -/

/-- R67 and R183: the accesses of `load` put the bytes in IN_BUF[0..k-1] and k in IN_LEN, and change nothing else. -/
def Obligations.LoadFillsInBufAndInLen : Prop :=
  ∀ s (bytes : List Byte), s.config.legal = true → bytes.length ≤ s.config.inCap →
    s.resetAsserted = false → s.pending = [] →
    ∃ t, run (bytes.length + 1)
        (issue ((expandPseudo 0 (.load bytes)).map assemble) s) = .next t ∧
      (∀ i < bytes.length, Memory.read t.inBuf i = some (bytes.getD i 0)) ∧
      (∀ i, bytes.length ≤ i → Memory.read t.inBuf i = Memory.read s.inBuf i) ∧
      t.inLen.toNat = bytes.length ∧ t = { s with inBuf := t.inBuf, inLen := t.inLen }

/-- R67 and R183: after a command, `dump` reads OUT_LEN and then every result, in order, and changes nothing else. (The list
`reads`, the most recent first, is the model's own form of what the host has read: log entry 3.) -/
def Obligations.DumpReadsTheResults : Prop :=
  ∀ s, s.Inv → s.resetAsserted = false → s.pending = [] →
    ∃ (t : State) (results : List Byte),
      run (s.outLen.toNat + 1)
        (issue ((expandPseudo s.outLen.toNat .dump).map assemble) s) = .next t ∧
      results.length = s.outLen.toNat ∧
      (∀ j < s.outLen.toNat, Memory.read s.outBuf j = some (results.getD j 0)) ∧
      t = { s with reads := results.reverse.map .byte ++ .word (s.outLen.setWidth 32) :: s.reads }

/-- R66: the tuple each assembly form stands for. -/
def Obligations.AssemblyFormsAreTheirTuples : Prop :=
  (∀ i, assemble (.sw (.reg .cmd) (.mnemonic i)) = .writeWord 0x0000 (encode i)) ∧
  (∀ w, assemble (.sw (.reg .cmd) (.number w)) = .writeWord 0x0000 w) ∧
  (∀ w, assemble (.sw (.reg .inLen) (.number w)) = .writeWord 0x0008 w) ∧
  (∀ w, assemble (.sw (.reg .status) (.number w)) = .writeWord 0x0004 w ∧
    assemble (.sw (.reg .outLen) (.number w)) = .writeWord 0x000C w ∧
    assemble (.sw (.reg .cap) (.number w)) = .writeWord 0x0010 w) ∧
  (assemble (.lw (.reg .cmd)) = .readWord 0x0000 ∧ assemble (.lw (.reg .status)) = .readWord 0x0004 ∧
    assemble (.lw (.reg .inLen)) = .readWord 0x0008 ∧ assemble (.lw (.reg .outLen)) = .readWord 0x000C ∧
    assemble (.lw (.reg .cap)) = .readWord 0x0010) ∧
  (∀ (i : Nat) v, i < 0xF000 → assemble (.sb (.inByte i) v) = .writeByte (0x1000 + BitVec.ofNat 16 i) v ∧
    assemble (.lb (.inByte i)) = .readByte (0x1000 + BitVec.ofNat 16 i)) ∧
  (∀ j : Nat, j < 0xE000 → assemble (.lb (.outByte j)) = .readByte (0x2000 + BitVec.ofNat 16 j)) ∧
  ∀ (off : Offset) w v, assemble (.sw (.raw off) (.number w)) = .writeWord off w ∧
    assemble (.lw (.raw off)) = .readWord off ∧ assemble (.sb (.raw off) v) = .writeByte off v ∧
    assemble (.lb (.raw off)) = .readByte off

/-- R67: what each pseudo-instruction expands to. `outLen` is the value L that a `dump` reads first. R67 gives the
characters of a `loadstr` their ASCII codes only; the code of a character above 0x7F, its code point modulo 256, is the
model's choice (DESIGN CHOICE, log entry 12). R67 sets no bound on the number of bytes or on L: that an expansion goes on past
the last 4-digit offset (0xF000 bytes of a `load` or `loadstr`, an L of 0xE000) is the model's choice too (DESIGN CHOICE, log
entry 14). -/
def Obligations.PseudoInstructionsExpandInOrder : Prop :=
  ∀ outLen : Nat,
    (∀ c, expandPseudo outLen (.run c) = [.sw (.reg .cmd) c]) ∧
    (∀ bytes : List Byte, expandPseudo outLen (.load bytes) =
      bytes.zipIdx.map (fun b => HostAsm.sb (.inByte b.2) b.1) ++
        [.sw (.reg .inLen) (.number (BitVec.ofNat 32 bytes.length))]) ∧
    (∀ text : List Char, expandPseudo outLen (.loadstr text) =
      expandPseudo outLen (.load (text.map fun c => BitVec.ofNat 8 c.toNat))) ∧
    expandPseudo outLen .dump = .lw (.reg .outLen) :: (List.range outLen).map (fun j => .lb (.outByte j)) ∧
    expandPseudo outLen .status = [.lw (.reg .status)]

/-- R68: a tuple's text has the fields the rule gives, and reading it gives the access back. The single blanks and the capital
hexadecimal digits of the text are the model's choice (DESIGN CHOICE, log entry 10). -/
def Obligations.TupleTextReadsBack : Prop :=
  ∀ a : HostAccess, parseTuple (tupleText a) = some a ∧
    (tupleText a).length = match a with
      | .readByte _ => 7
      | .readWord _ => 7
      | .writeByte _ _ => 10
      | .writeWord _ _ => 16
end

