-- ==== Sys2Proof/Laws/Memory.lean ====
section
/-! SUPPORT. What the memory operations do: reading after writing, the canonical form kept, and its extensionality. -/

namespace Sys2Proof.Machine

@[simp] theorem Memory.read_nil (k : Nat) : Memory.read [] k = none := rfl

theorem Memory.read_cons (a : Nat) (b : Byte) (m : Memory) (k : Nat) :
    Memory.read ((a, b) :: m) k = if a = k then some b else Memory.read m k := rfl

/-- An index below every key is unwritten. -/
theorem Memory.read_eq_none_of_lt (m : Memory) (k : Nat) (h : ∀ c ∈ m, k < c.1) :
    Memory.read m k = none := by
  induction m with
  | nil => rfl
  | cons c m ih =>
    obtain ⟨a, b⟩ := c
    have ha : k < a := h (a, b) (by simp)
    rw [Memory.read_cons, if_neg (by omega)]
    exact ih fun c hc => h c (by simp [hc])

/-- A read after a write: the written byte at its index, and the old byte everywhere else. -/
theorem Memory.read_write (m : Memory) (k j : Nat) (v : Byte) :
    Memory.read (Memory.write m k v) j = if k = j then some v else Memory.read m j := by
  induction m with
  | nil => simp [Memory.write, Memory.read]
  | cons c m ih =>
    obtain ⟨a, b⟩ := c
    simp only [Memory.write]
    split
    · simp [Memory.read_cons]
    · split
      · subst a
        simp only [Memory.read_cons]
        split <;> rfl
      · simp only [Memory.read_cons, ih]
        by_cases hk : k = j
        · subst hk; simp [show ¬ a = k by omega]
        · simp [hk]

/-- The keys of a written memory are the old keys and the written one. -/
theorem Memory.mem_write {m : Memory} {k : Nat} {v : Byte} {c : Host.Cell} (h : c ∈ Memory.write m k v) :
    c = (k, v) ∨ c ∈ m := by
  induction m with
  | nil => simpa [Memory.write] using h
  | cons d m ih =>
    obtain ⟨a, b⟩ := d
    simp only [Memory.write] at h
    split at h
    · simpa using h
    · split at h
      · rcases List.mem_cons.1 h with h | h
        · exact .inl h
        · exact .inr (by simp [h])
      · rcases List.mem_cons.1 h with h | h
        · exact .inr (by simp [h])
        · rcases ih h with h | h
          · exact .inl h
          · exact .inr (by simp [h])

/-- A write keeps the canonical form. -/
theorem Memory.write_wf {m : Memory} (k : Nat) (v : Byte) (h : Memory.wf m) : Memory.wf (Memory.write m k v) := by
  induction m with
  | nil => simp [Memory.write, Memory.wf]
  | cons d m ih =>
    obtain ⟨a, b⟩ := d
    obtain ⟨ha, hm⟩ := List.pairwise_cons.1 h
    simp only [Memory.write]
    split
    · refine List.pairwise_cons.2 ⟨fun c hc => ?_, h⟩
      rcases List.mem_cons.1 hc with rfl | hc
      · assumption
      · have := ha c hc
        simp only at this ⊢
        omega
    · split
      · subst a
        exact List.pairwise_cons.2 ⟨ha, hm⟩
      · refine List.pairwise_cons.2 ⟨fun c hc => ?_, ih hm⟩
        rcases Memory.mem_write hc with rfl | hc
        · simp only
          omega
        · exact ha c hc

/-- Reading after writing a block at `k`. -/
theorem Memory.read_writeFrom (m : Memory) (k j : Nat) (vs : List Byte) :
    Memory.read (Memory.writeFrom m k vs) j =
      if k ≤ j ∧ j < k + vs.length then vs[j - k]? else Memory.read m j := by
  induction vs generalizing m k with
  | nil => simp [Memory.writeFrom]
  | cons v vs ih =>
    simp only [Memory.writeFrom, ih, Memory.read_write, List.length_cons]
    by_cases h1 : k = j
    · subst h1; simp
    · by_cases h2 : k + 1 ≤ j ∧ j < k + 1 + vs.length
      · rw [if_pos h2, if_pos (by omega), show j - k = (j - (k + 1)) + 1 by omega, List.getElem?_cons_succ]
      · rw [if_neg h2, if_neg h1, if_neg (by omega)]

/-- A block write keeps the canonical form. -/
theorem Memory.writeFrom_wf {m : Memory} (k : Nat) (vs : List Byte) (h : Memory.wf m) :
    Memory.wf (Memory.writeFrom m k vs) := by
  induction vs generalizing m k with
  | nil => exact h
  | cons v vs ih => exact ih (k + 1) (Memory.write_wf k v h)

/-- The keys of a memory after a block write are the old keys and the block's indices. -/
theorem Memory.mem_writeFrom {m : Memory} {k : Nat} {vs : List Byte} {c : Host.Cell}
    (h : c ∈ Memory.writeFrom m k vs) : (k ≤ c.1 ∧ c.1 < k + vs.length) ∨ c ∈ m := by
  induction vs generalizing m k with
  | nil => exact .inr h
  | cons v vs ih =>
    simp only [Memory.writeFrom] at h
    rcases ih h with h | h
    · left; simp only [List.length_cons]; omega
    · rcases Memory.mem_write h with rfl | h
      · left; simp
      · exact .inr h

/-- A byte is read from a memory in canonical form exactly where its cell is listed. -/
theorem Memory.read_eq_some_iff {m : Memory} (h : Memory.wf m) (k : Nat) (v : Byte) :
    Memory.read m k = some v ↔ (k, v) ∈ m := by
  induction m with
  | nil => simp
  | cons d m ih =>
    obtain ⟨a, b⟩ := d
    obtain ⟨ha, hm⟩ := List.pairwise_cons.1 h
    rw [Memory.read_cons, List.mem_cons]
    split
    · subst a
      constructor
      · rintro ⟨⟩; exact .inl rfl
      · rintro (h | h)
        · cases h; rfl
        · have := ha _ h; simp at this
    · rw [ih hm]
      constructor
      · exact .inr
      · rintro (h | h)
        · cases h; contradiction
        · exact h

/-- Two memories in canonical form that read alike everywhere are the same list. -/
theorem Memory.ext_of_wf {m m' : Memory} (h : Memory.wf m) (h' : Memory.wf m')
    (hr : ∀ k, Memory.read m k = Memory.read m' k) : m = m' := by
  induction m generalizing m' with
  | nil =>
    cases m' with
    | nil => rfl
    | cons d m' =>
      obtain ⟨a, b⟩ := d
      simpa [Memory.read_cons] using hr a
  | cons c m ih =>
    cases m' with
    | nil =>
      obtain ⟨a, b⟩ := c
      simpa [Memory.read_cons] using hr a
    | cons d m' =>
      obtain ⟨a, b⟩ := c
      obtain ⟨a', b'⟩ := d
      obtain ⟨ha, hm⟩ := List.pairwise_cons.1 h
      obtain ⟨ha', hm'⟩ := List.pairwise_cons.1 h'
      have keys : a = a' := by
        rcases Nat.lt_trichotomy a a' with hlt | heq | hgt
        · have h1 := hr a
          rw [Memory.read_cons, if_pos rfl, Memory.read_eq_none_of_lt] at h1
          · cases h1
          · intro c hc
            rcases List.mem_cons.1 hc with rfl | hc
            · exact hlt
            · exact Nat.lt_trans hlt (ha' c hc)
        · exact heq
        · have h1 := hr a'
          rw [Memory.read_cons a' b', if_pos rfl, Memory.read_eq_none_of_lt] at h1
          · cases h1
          · intro c hc
            rcases List.mem_cons.1 hc with rfl | hc
            · exact hgt
            · exact Nat.lt_trans hgt (ha c hc)
      subst a'
      have vals : b = b' := by simpa [Memory.read_cons] using hr a
      subst b'
      congr 1
      refine ih hm hm' fun k => ?_
      by_cases hk : a = k
      · subst hk
        rw [Memory.read_eq_none_of_lt m a ha, Memory.read_eq_none_of_lt m' a ha']
      · simpa [Memory.read_cons, hk] using hr k

/-- Reading a block gives its bytes exactly where all of them are written. -/
theorem Memory.readFrom_eq_some_iff (m : Memory) (k n : Nat) (bs : List Byte) :
    Memory.readFrom m k n = some bs ↔
      bs.length = n ∧ ∀ i < n, Memory.read m (k + i) = some (bs.getD i 0) := by
  induction n generalizing k bs with
  | zero =>
    simp only [Memory.readFrom, Option.some.injEq]
    constructor
    · rintro rfl; simp
    · rintro ⟨h, _⟩; exact (List.eq_nil_of_length_eq_zero h).symm
  | succ n ih =>
    simp only [Memory.readFrom]
    constructor
    · intro h
      split at h
      · next b bs' hb hbs =>
        cases h
        obtain ⟨hl, hr⟩ := (ih (k + 1) bs').1 hbs
        refine ⟨by simp [hl], fun i hi => ?_⟩
        cases i with
        | zero => simpa using hb
        | succ i => simpa [Nat.add_assoc, Nat.add_comm 1] using hr i (by omega)
      · cases h
    · rintro ⟨hl, hr⟩
      cases bs with
      | nil => simp at hl
      | cons b bs =>
        have hb : Memory.read m k = some b := by simpa using hr 0 (by omega)
        have hbs : Memory.readFrom m (k + 1) n = some bs := by
          refine (ih (k + 1) bs).2 ⟨by simpa using hl, fun i hi => ?_⟩
          simpa [Nat.add_assoc, Nat.add_comm 1] using hr (i + 1) (by omega)
        simp [hb, hbs]

/-- Reading a block gives no value exactly where one of its bytes is unwritten. -/
theorem Memory.readFrom_eq_none_iff (m : Memory) (k n : Nat) :
    Memory.readFrom m k n = none ↔ ∃ i < n, Memory.read m (k + i) = none := by
  induction n generalizing k with
  | zero => simp [Memory.readFrom]
  | succ n ih =>
    simp only [Memory.readFrom]
    constructor
    · intro h
      rcases hb : Memory.read m k with _ | b
      · exact ⟨0, by omega, by simpa using hb⟩
      · rcases hbs : Memory.readFrom m (k + 1) n with _ | bs
        · obtain ⟨i, hi, hr⟩ := (ih (k + 1)).1 hbs
          exact ⟨i + 1, by omega, by simpa [Nat.add_assoc, Nat.add_comm 1] using hr⟩
        · simp [hb, hbs] at h
    · rintro ⟨i, hi, hr⟩
      cases i with
      | zero => simp only [Nat.add_zero] at hr; simp [hr]
      | succ i =>
        have : Memory.readFrom m (k + 1) n = none :=
          (ih (k + 1)).2 ⟨i, by omega, by simpa [Nat.add_assoc, Nat.add_comm 1] using hr⟩
        simp [this]

/-- Both buffers are in canonical form after reset. -/
theorem reset_buffers_wf : Memory.wf State.reset.inBuf ∧ Memory.wf State.reset.outBuf := by decide

end Sys2Proof.Machine
end

