-- ==== Sys2Proof/Laws/State.lean ====
section
/-! SUPPORT. One lemma per field for each operation on the state, so that no later proof unfolds a record update. -/

namespace Sys2Proof.Machine

@[simp] theorem raise_config (c : Condition) (s : State) : (raise c s).config = s.config := rfl
@[simp] theorem raise_inBuf (c : Condition) (s : State) : (raise c s).inBuf = s.inBuf := rfl
@[simp] theorem raise_outBuf (c : Condition) (s : State) : (raise c s).outBuf = s.outBuf := rfl
@[simp] theorem raise_inLen (c : Condition) (s : State) : (raise c s).inLen = s.inLen := rfl
@[simp] theorem raise_outLen (c : Condition) (s : State) : (raise c s).outLen = 0 := rfl
@[simp] theorem raise_status (c : Condition) (s : State) : (raise c s).status = conditionStatus c := rfl
@[simp] theorem raise_resetAsserted (c : Condition) (s : State) : (raise c s).resetAsserted = s.resetAsserted := rfl
@[simp] theorem raise_pending (c : Condition) (s : State) : (raise c s).pending = s.pending := rfl
@[simp] theorem raise_reads (c : Condition) (s : State) : (raise c s).reads = s.reads := rfl

@[simp] theorem complete_config (bs : List Byte) (s : State) : (complete bs s).config = s.config := rfl
@[simp] theorem complete_inBuf (bs : List Byte) (s : State) : (complete bs s).inBuf = s.inBuf := rfl
@[simp] theorem complete_outBuf (bs : List Byte) (s : State) : (complete bs s).outBuf = Memory.writeFrom s.outBuf 0 bs := rfl
@[simp] theorem complete_inLen (bs : List Byte) (s : State) : (complete bs s).inLen = s.inLen := rfl
@[simp] theorem complete_outLen (bs : List Byte) (s : State) : (complete bs s).outLen = BitVec.ofNat 16 bs.length := rfl
@[simp] theorem complete_status (bs : List Byte) (s : State) : (complete bs s).status = 0 := rfl
@[simp] theorem complete_resetAsserted (bs : List Byte) (s : State) : (complete bs s).resetAsserted = s.resetAsserted := rfl
@[simp] theorem complete_pending (bs : List Byte) (s : State) : (complete bs s).pending = s.pending := rfl
@[simp] theorem complete_reads (bs : List Byte) (s : State) : (complete bs s).reads = s.reads := rfl

@[simp] theorem resetItems_config (a : Bool) (s : State) : (resetItems a s).config = s.config := rfl
@[simp] theorem resetItems_inBuf (a : Bool) (s : State) : (resetItems a s).inBuf = [] := rfl
@[simp] theorem resetItems_outBuf (a : Bool) (s : State) : (resetItems a s).outBuf = [] := rfl
@[simp] theorem resetItems_inLen (a : Bool) (s : State) : (resetItems a s).inLen = 0 := rfl
@[simp] theorem resetItems_outLen (a : Bool) (s : State) : (resetItems a s).outLen = 0 := rfl
@[simp] theorem resetItems_status (a : Bool) (s : State) : (resetItems a s).status = 0 := rfl
@[simp] theorem resetItems_resetAsserted (a : Bool) (s : State) : (resetItems a s).resetAsserted = a := rfl
@[simp] theorem resetItems_pending (a : Bool) (s : State) : (resetItems a s).pending = s.pending := rfl
@[simp] theorem resetItems_reads (a : Bool) (s : State) : (resetItems a s).reads = s.reads := rfl

@[simp] theorem returnDatum_config (d : HostDatum) (s : State) : (returnDatum d s).config = s.config := rfl
@[simp] theorem returnDatum_inBuf (d : HostDatum) (s : State) : (returnDatum d s).inBuf = s.inBuf := rfl
@[simp] theorem returnDatum_outBuf (d : HostDatum) (s : State) : (returnDatum d s).outBuf = s.outBuf := rfl
@[simp] theorem returnDatum_inLen (d : HostDatum) (s : State) : (returnDatum d s).inLen = s.inLen := rfl
@[simp] theorem returnDatum_outLen (d : HostDatum) (s : State) : (returnDatum d s).outLen = s.outLen := rfl
@[simp] theorem returnDatum_status (d : HostDatum) (s : State) : (returnDatum d s).status = s.status := rfl
@[simp] theorem returnDatum_resetAsserted (d : HostDatum) (s : State) : (returnDatum d s).resetAsserted = s.resetAsserted := rfl
@[simp] theorem returnDatum_pending (d : HostDatum) (s : State) : (returnDatum d s).pending = s.pending := rfl
@[simp] theorem returnDatum_reads (d : HostDatum) (s : State) : (returnDatum d s).reads = d :: s.reads := rfl

@[simp] theorem withCommandWrite_config (w : Word) (s : State) : (withCommandWrite w s).config = s.config := rfl
@[simp] theorem withCommandWrite_inBuf (w : Word) (s : State) : (withCommandWrite w s).inBuf = s.inBuf := rfl
@[simp] theorem withCommandWrite_outBuf (w : Word) (s : State) : (withCommandWrite w s).outBuf = s.outBuf := rfl
@[simp] theorem withCommandWrite_inLen (w : Word) (s : State) : (withCommandWrite w s).inLen = s.inLen := rfl
@[simp] theorem withCommandWrite_outLen (w : Word) (s : State) : (withCommandWrite w s).outLen = s.outLen := rfl
@[simp] theorem withCommandWrite_status (w : Word) (s : State) : (withCommandWrite w s).status = s.status := rfl
@[simp] theorem withCommandWrite_resetAsserted (w : Word) (s : State) : (withCommandWrite w s).resetAsserted = false := rfl
@[simp] theorem withCommandWrite_pending (w : Word) (s : State) : (withCommandWrite w s).pending = .access (.writeWord (regOffset .cmd) w) :: s.pending := rfl
@[simp] theorem withCommandWrite_reads (w : Word) (s : State) : (withCommandWrite w s).reads = s.reads := rfl

@[simp] theorem issue_config (p : HostProgram) (s : State) : (issue p s).config = s.config := rfl
@[simp] theorem issue_inBuf (p : HostProgram) (s : State) : (issue p s).inBuf = s.inBuf := rfl
@[simp] theorem issue_outBuf (p : HostProgram) (s : State) : (issue p s).outBuf = s.outBuf := rfl
@[simp] theorem issue_inLen (p : HostProgram) (s : State) : (issue p s).inLen = s.inLen := rfl
@[simp] theorem issue_outLen (p : HostProgram) (s : State) : (issue p s).outLen = s.outLen := rfl
@[simp] theorem issue_status (p : HostProgram) (s : State) : (issue p s).status = s.status := rfl
@[simp] theorem issue_resetAsserted (p : HostProgram) (s : State) : (issue p s).resetAsserted = s.resetAsserted := rfl
@[simp] theorem issue_pending (p : HostProgram) (s : State) : (issue p s).pending = s.pending ++ p.map .access := rfl
@[simp] theorem issue_reads (p : HostProgram) (s : State) : (issue p s).reads = s.reads := rfl

@[simp] theorem afterReset_config (c : Config) : (State.afterReset c).config = c := rfl
@[simp] theorem afterReset_inBuf (c : Config) : (State.afterReset c).inBuf = [] := rfl
@[simp] theorem afterReset_outBuf (c : Config) : (State.afterReset c).outBuf = [] := rfl
@[simp] theorem afterReset_inLen (c : Config) : (State.afterReset c).inLen = 0 := rfl
@[simp] theorem afterReset_outLen (c : Config) : (State.afterReset c).outLen = 0 := rfl
@[simp] theorem afterReset_status (c : Config) : (State.afterReset c).status = 0 := rfl
@[simp] theorem afterReset_resetAsserted (c : Config) : (State.afterReset c).resetAsserted = false := rfl
@[simp] theorem afterReset_pending (c : Config) : (State.afterReset c).pending = [] := rfl
@[simp] theorem afterReset_reads (c : Config) : (State.afterReset c).reads = [] := rfl

/-! A host byte write changes no field but IN_BUF. -/

@[simp] theorem hostWriteByte_config (off : Offset) (v : Byte) (s : State) : (hostWriteByte off v s).config = s.config := by
  unfold hostWriteByte; split <;> rfl
@[simp] theorem hostWriteByte_outBuf (off : Offset) (v : Byte) (s : State) : (hostWriteByte off v s).outBuf = s.outBuf := by
  unfold hostWriteByte; split <;> rfl
@[simp] theorem hostWriteByte_inLen (off : Offset) (v : Byte) (s : State) : (hostWriteByte off v s).inLen = s.inLen := by
  unfold hostWriteByte; split <;> rfl
@[simp] theorem hostWriteByte_outLen (off : Offset) (v : Byte) (s : State) : (hostWriteByte off v s).outLen = s.outLen := by
  unfold hostWriteByte; split <;> rfl
@[simp] theorem hostWriteByte_status (off : Offset) (v : Byte) (s : State) : (hostWriteByte off v s).status = s.status := by
  unfold hostWriteByte; split <;> rfl
@[simp] theorem hostWriteByte_resetAsserted (off : Offset) (v : Byte) (s : State) : (hostWriteByte off v s).resetAsserted = s.resetAsserted := by
  unfold hostWriteByte; split <;> rfl
@[simp] theorem hostWriteByte_pending (off : Offset) (v : Byte) (s : State) : (hostWriteByte off v s).pending = s.pending := by
  unfold hostWriteByte; split <;> rfl
@[simp] theorem hostWriteByte_reads (off : Offset) (v : Byte) (s : State) : (hostWriteByte off v s).reads = s.reads := by
  unfold hostWriteByte; split <;> rfl

end Sys2Proof.Machine
end

