-- ==== Sys2Proof/Laws/Commands.lean ====
section
/-! SUPPORT. What a command can do, said once: every command is `runCommand` with its own check and transform, and
`runCommand` ends in one of four ways. -/

namespace Sys2Proof.Machine

/-- The check each command makes on its operand bytes. -/
def commandCheck : Instr → List Byte → Option Condition
  | .mapf => noInputCheck
  | .mapr => noInputCheck
  | .pack => noInputCheck
  | .unpack => inputErrorCheck
  | .encode => noInputCheck
  | .decode => inputErrorCheck

/-- What each command makes of its operand bytes. -/
def commandTransform : Instr → List Byte → List Byte
  | .mapf => List.map fun c => byteOf (toCodePoint c)
  | .mapr => List.map fun b => toCharacter (codePointOf b)
  | .pack => fun bytes => packOctets (bytes.map codePointOf)
  | .unpack => fun bytes => (unpackOctets bytes).map byteOf
  | .encode => fun bytes => packOctets (bytes.map toCodePoint)
  | .decode => fun bytes => (unpackOctets bytes).map toCharacter

theorem exec_eq_runCommand (i : Instr) (s : State) :
    exec i s = runCommand (commandCheck i) (commandTransform i) s := by
  cases i <;> rfl

theorem lengthOverflows_iff (s : State) : lengthOverflows s = true ↔ s.config.inCap < s.inLen.toNat := by
  simp [lengthOverflows]

/-- The operand bytes are IN_BUF[0..IN_LEN.LEN-1], read where all of them are written. -/
theorem inputBytes_eq_some_iff (s : State) (bs : List Byte) :
    inputBytes s = some bs ↔
      bs.length = s.inLen.toNat ∧ ∀ i < s.inLen.toNat, Memory.read s.inBuf i = some (bs.getD i 0) := by
  simp [inputBytes, Memory.readFrom_eq_some_iff]

theorem inputBytes_eq_none_iff (s : State) :
    inputBytes s = none ↔ ∃ i < s.inLen.toNat, Memory.read s.inBuf i = none := by
  simp [inputBytes, Memory.readFrom_eq_none_iff]

/-- The four ways a command ends: over the capacity, on an unwritten operand byte, on its own check, or complete. -/
theorem runCommand_cases (check : List Byte → Option Condition) (f : List Byte → List Byte) (s : State) :
    (s.config.inCap < s.inLen.toNat ∧ runCommand check f s = .next (raise .lengthOverflow s)) ∨
    (s.inLen.toNat ≤ s.config.inCap ∧ inputBytes s = none ∧ runCommand check f s = .fault .uninitRead) ∨
    (∃ bs c, s.inLen.toNat ≤ s.config.inCap ∧ inputBytes s = some bs ∧ check bs = some c ∧
      runCommand check f s = .next (raise c s)) ∨
    (∃ bs, s.inLen.toNat ≤ s.config.inCap ∧ inputBytes s = some bs ∧ check bs = none ∧
      runCommand check f s = .next (complete (f bs) s)) := by
  by_cases h : s.config.inCap < s.inLen.toNat
  · left
    simp [runCommand, lengthOverflows, h]
  · right
    have hle : s.inLen.toNat ≤ s.config.inCap := by omega
    rcases hb : inputBytes s with _ | bs
    · left
      simp [runCommand, lengthOverflows, h, hb, hle]
    · right
      rcases hc : check bs with _ | c
      · right
        exact ⟨bs, by simp [runCommand, lengthOverflows, h, hb, hc, hle]⟩
      · left
        exact ⟨bs, c, by simp [runCommand, lengthOverflows, h, hb, hc, hle]⟩

/-- A command whose operand bytes are `bs` and pass its check completes with its transform of them. -/
theorem exec_complete {i : Instr} {s : State} {bs : List Byte} (hl : s.inLen.toNat ≤ s.config.inCap)
    (hb : inputBytes s = some bs) (hc : commandCheck i bs = none) :
    exec i s = .next (complete (commandTransform i bs) s) := by
  rw [exec_eq_runCommand]
  simp [runCommand, lengthOverflows, Nat.not_lt.2 hl, hb, hc]

@[simp] theorem noInputCheck_eq (bs : List Byte) : noInputCheck bs = none := rfl

/-- The check of UNPACK and DECODE fires on a single octet with bit 7 set, and on nothing else. -/
theorem inputErrorCheck_eq_some_iff (bs : List Byte) (c : Condition) :
    inputErrorCheck bs = some c ↔ c = .inputError ∧ bs.length = 1 ∧ (bs.getD 0 0).getLsbD 7 = true := by
  rcases bs with _ | ⟨b, _ | ⟨b', bs⟩⟩
  · simp [inputErrorCheck]
  · simp [inputErrorCheck]
    exact ⟨fun ⟨h, h'⟩ => ⟨h'.symm, h⟩, fun ⟨h, h'⟩ => ⟨h', h.symm⟩⟩
  · simp [inputErrorCheck]

@[simp] theorem conditionStatus_inputError : conditionStatus .inputError = 1 := rfl
@[simp] theorem conditionStatus_lengthOverflow : conditionStatus .lengthOverflow = 2 := rfl
@[simp] theorem conditionStatus_illegalCommand : conditionStatus .illegalCommand = 4 := rfl

/-- Everything a command can have done when it answers a next state: raised LengthOverflow, raised InputError, or
completed with its transform of the operand bytes. -/
theorem exec_next_cases {i : Instr} {s t : State} (h : exec i s = .next t) :
    (s.config.inCap < s.inLen.toNat ∧ t = raise .lengthOverflow s) ∨
    (∃ bs, s.inLen.toNat ≤ s.config.inCap ∧ inputBytes s = some bs ∧ (i = .unpack ∨ i = .decode) ∧
      bs.length = 1 ∧ (bs.getD 0 0).getLsbD 7 = true ∧ t = raise .inputError s) ∨
    (∃ bs, s.inLen.toNat ≤ s.config.inCap ∧ inputBytes s = some bs ∧ commandCheck i bs = none ∧
      t = complete (commandTransform i bs) s) := by
  rw [exec_eq_runCommand] at h
  rcases runCommand_cases (commandCheck i) (commandTransform i) s with
    ⟨hl, h'⟩ | ⟨_, _, h'⟩ | ⟨bs, c, hl, hb, hc, h'⟩ | ⟨bs, hl, hb, hc, h'⟩ <;> rw [h'] at h <;> cases h
  · exact .inl ⟨hl, rfl⟩
  · have hi : (i = .unpack ∨ i = .decode) ∧ inputErrorCheck bs = some c := by
      cases i <;> simp [commandCheck] at hc <;> simp [hc]
    obtain ⟨rfl, h1, h7⟩ := (inputErrorCheck_eq_some_iff bs c).1 hi.2
    exact .inr (.inl ⟨bs, hl, hb, hi.1, h1, h7, rfl⟩)
  · exact .inr (.inr ⟨bs, hl, hb, hc, rfl⟩)

/-- The operand bytes as a list, where the bytes of IN_BUF are given by a function. -/
theorem inputBytes_of_holdsInput {s : State} {b : Nat → Byte} (h : s.HoldsInput b) :
    inputBytes s = some ((List.range s.inLen.toNat).map b) := by
  rw [inputBytes_eq_some_iff]
  refine ⟨by simp, fun i hi => ?_⟩
  rw [h.2 i hi]
  simp [List.getD_eq_getElem?_getD, hi]

/-- Reading OUT_BUF after a command completes: its results, and the old bytes above them. -/
theorem read_complete (bs : List Byte) (s : State) (j : Nat) :
    Memory.read (complete bs s).outBuf j = if j < bs.length then bs[j]? else Memory.read s.outBuf j := by
  simp [complete, Memory.read_writeFrom]

@[simp] theorem length_packOctets (s : List CodePoint) : (packOctets s).length = packedLength s.length := by
  simp [packOctets]

@[simp] theorem length_unpackOctets (o : List Byte) : (unpackOctets o).length = unpackedCount o.length := by
  simp [unpackOctets]

/-- The octet at an index of a packed sequence. -/
theorem getD_packOctets (s : List CodePoint) (j : Nat) (h : j < packedLength s.length) :
    (packOctets s).getD j 0 = packOctet s j := by
  simp [packOctets, List.getD_eq_getElem?_getD, h]

/-- The CodePoint at an index of an unpacked sequence. -/
theorem getD_unpackOctets (o : List Byte) (k : Nat) (h : k < unpackedCount o.length) :
    (unpackOctets o).getD k 0 = unpackSeptet o k := by
  simp [unpackOctets, List.getD_eq_getElem?_getD, h]

/-- Bit `t` of packed octet `j`: a bit of the current septet below 7 − r, and a bit of the next one from there on. -/
theorem getLsbD_packOctet (s : List CodePoint) (j t : Nat) (ht : t < 8) :
    (packOctet s j).getLsbD t =
      if t < 7 - j % 7 then (s.getD (j + j / 7) 0).getLsbD (j % 7 + t)
      else (s.getD (j + j / 7 + 1) 0).getLsbD (t - (7 - j % 7)) := by
  have hr : j % 7 < 7 := Nat.mod_lt _ (by omega)
  simp only [packOctet]
  generalize s.getD (j + j / 7) 0 = a
  generalize s.getD (j + j / 7 + 1) 0 = b
  simp only [BitVec.getLsbD_setWidth, BitVec.getLsbD_or, BitVec.getLsbD_ushiftRight,
    BitVec.getLsbD_shiftLeft]
  split
  · next h => simp [ht, show j % 7 + t < 16 by omega, h, show t < 16 by omega]
  · next h =>
    have h1 : a.getLsbD (j % 7 + t) = false :=
      BitVec.getLsbD_of_ge _ _ (by omega)
    simp [ht, h1, h, show t < 16 by omega, show t - (7 - j % 7) < 16 by omega]

/-- Bit `b` of unpacked CodePoint `k`: a bit of octet ⌊7k/8⌋, or of the next octet. -/
theorem getLsbD_unpackSeptet (o : List Byte) (k b : Nat) (hb : b < 7) :
    (unpackSeptet o k).getLsbD b =
      if 7 * k % 8 + b < 8 then (o.getD (7 * k / 8) 0).getLsbD (7 * k % 8 + b)
      else (o.getD (7 * k / 8 + 1) 0).getLsbD (7 * k % 8 + b - 8) := by
  simp only [unpackSeptet, BitVec.getLsbD_setWidth, BitVec.getLsbD_ushiftRight, BitVec.getLsbD_append]
  split <;> simp [*]

/-- Bit `t` of packed octet `j` is bit 8j + t of the septets, laid end to end (a septet past the end is 0). -/
theorem getLsbD_packOctet_stream (s : List CodePoint) (j t : Nat) (ht : t < 8) :
    (packOctet s j).getLsbD t = (s.getD ((8 * j + t) / 7) 0).getLsbD ((8 * j + t) % 7) := by
  rw [getLsbD_packOctet _ _ _ ht]
  have hr : j % 7 < 7 := Nat.mod_lt _ (by omega)
  split
  · rw [show (8 * j + t) / 7 = j + j / 7 by omega, show (8 * j + t) % 7 = j % 7 + t by omega]
  · rw [show (8 * j + t) / 7 = j + j / 7 + 1 by omega, show (8 * j + t) % 7 = t - (7 - j % 7) by omega]

/-- Bit `b` of unpacked CodePoint `k` is bit 7k + b of the octets, laid end to end (an octet past the end is 0). -/
theorem getLsbD_unpackSeptet_stream (o : List Byte) (k b : Nat) (hb : b < 7) :
    (unpackSeptet o k).getLsbD b = (o.getD ((7 * k + b) / 8) 0).getLsbD ((7 * k + b) % 8) := by
  rw [getLsbD_unpackSeptet _ _ _ hb]
  split
  · rw [show (7 * k + b) / 8 = 7 * k / 8 by omega, show (7 * k + b) % 8 = 7 * k % 8 + b by omega]
  · rw [show (7 * k + b) / 8 = 7 * k / 8 + 1 by omega, show (7 * k + b) % 8 = 7 * k % 8 + b - 8 by omega]

/-- No command makes more than OUT_CAP results of IN_CAP operand bytes or fewer (R22). -/
theorem length_commandTransform_le (i : Instr) (bs : List Byte) (c : Config) (h : bs.length ≤ c.inCap) :
    (commandTransform i bs).length ≤ outCap c := by
  cases i <;> simp [commandTransform, packedLength, unpackedCount, outCap] <;> omega

end Sys2Proof.Machine
end

