-- ==== Sys2Proof/Laws/HostPort.lean ====
section
/-! SUPPORT. What the host port does, said once. -/

namespace Sys2Proof.Machine

/-- Each register is found at its own offset. -/
@[simp] theorem regAt_regOffset (r : Reg) : regAt (regOffset r) = some r := by cases r <;> rfl

/-- A register is at an offset only if the offset is its own. -/
theorem regAt_eq_some_iff (off : Offset) (r : Reg) : regAt off = some r ↔ off = regOffset r := by
  constructor
  · intro h
    simp only [regAt] at h
    split at h <;> [skip; split at h] <;> [skip; skip; split at h] <;> [skip; skip; skip; split at h] <;>
      [skip; skip; skip; skip; split at h] <;> simp_all
  · rintro rfl; exact regAt_regOffset r

/-- A byte-wide access reaches IN_BUF[i] exactly at offset 0x1000 + i with i below both the window and IN_CAP. -/
theorem byteTarget_eq_inByte_iff (c : Config) (off : Offset) (i : Nat) :
    byteTarget c off = .inByte i ↔ off.toNat = 0x1000 + i ∧ i < 0x1000 ∧ i < c.inCap := by
  unfold byteTarget
  split <;> split <;> (try split) <;> simp <;> omega

/-- A byte-wide access reaches OUT_BUF[j] exactly at offset 0x2000 + j with j below both the window and OUT_CAP. -/
theorem byteTarget_eq_outByte_iff (c : Config) (off : Offset) (j : Nat) :
    byteTarget c off = .outByte j ↔ off.toNat = 0x2000 + j ∧ j < 0x1000 ∧ j < outCap c := by
  unfold byteTarget
  split <;> split <;> (try split) <;> simp <;> omega

/-- A word-wide read at a register's offset returns that register. -/
@[simp] theorem hostReadWord_regOffset (s : State) (r : Reg) : hostReadWord s (regOffset r) = readReg s r := by
  simp [hostReadWord]

/-- CAP as a number: OUT_CAP above IN_CAP. -/
theorem toNat_capWord (c : Config) :
    (capWord c).toNat = outCap c % 2 ^ 16 * 2 ^ 16 + c.inCap % 2 ^ 16 := by
  have h := BitVec.toNat_append (BitVec.ofNat 16 (outCap c)) (BitVec.ofNat 16 c.inCap)
  rw [← Nat.shiftLeft_add_eq_or_of_lt (BitVec.isLt _), Nat.shiftLeft_eq] at h
  simpa [capWord] using h

/-- What a step does with an access while reset is not asserted. -/
theorem step_access {s : State} {a : HostAccess} {rest : List HostEvent} (hr : s.resetAsserted = false)
    (hp : s.pending = .access a :: rest) : step s = performAccess a { s with pending := rest } := by
  simp [step, performNext, hp, performEvent, hr]

/-- What a step does with an access the host offers. -/
theorem step_offers {s : State} {a : HostAccess} {rest : List HostEvent} (h : s.Offers a rest) :
    step s = performAccess a { s with pending := rest } := step_access h.1 h.2

/-- A CMD write performs its command, or raises IllegalCommand. -/
theorem performAccess_cmd (w : Word) (s : State) : performAccess (.writeWord 0x0000 w) s = startCommand w s := rfl

/-- A run goes on from the state its first step leaves. -/
theorem run_succ {k : Nat} {s t : State} (h : step s = .next t) : run (k + 1) s = run k t := by
  simp [run, h]

/-- `run` is the run of the host's interface. -/
theorem run_eq_core_run (k : Nat) (s : State) : run k s = Sys2Proof.core.run k s := by
  induction k generalizing s with
  | zero => rfl
  | succ k ih =>
    rcases hs : step s with t | f | r
    · have hs' : Sys2Proof.core.step s = .next t := hs
      simp only [run, Host.Core.run, hs, hs']
      exact ih t
    · have hs' : Sys2Proof.core.step s = .fault f := hs
      simp only [run, Host.Core.run, hs, hs']
      rfl
    · have hs' : Sys2Proof.core.step s = .refused r := hs
      simp only [run, Host.Core.run, hs, hs']
      rfl

end Sys2Proof.Machine
end

