-- ==== Sys2Proof/Laws/PerInstr.lean ====
section
/-! SUPPORT. What holds of every command as syntax, one lemma per constructor. -/

namespace Sys2Proof.Laws.OpcodeField

/-- The word of a well-formed command has RSV = 0 and its OP in 1..6 (R60). -/
def Statement (i : Instr) : Prop :=
  i.wellFormed = true ∧ cmdRsv (encode i) = 0 ∧ 1 ≤ (cmdOp (encode i)).toNat ∧ (cmdOp (encode i)).toNat ≤ 6

theorem mapf : Statement .mapf := by unfold Statement; decide
theorem mapr : Statement .mapr := by unfold Statement; decide
theorem pack : Statement .pack := by unfold Statement; decide
theorem unpack : Statement .unpack := by unfold Statement; decide
theorem encode : Statement .encode := by unfold Statement; decide
theorem decode : Statement .decode := by unfold Statement; decide

end Sys2Proof.Laws.OpcodeField
end

