-- ==== Sys2Proof/Tests/Slice0.lean ====
section
/-! SUPPORT. Small tests, their expected results taken from spec/30_encoding.md and spec/95_test_vectors.md (T…, V…), and a
named witness for the hypotheses of every statement. -/

namespace Sys2Proof.Tests

open Sys2Proof Sys2Proof.Machine Sys2Proof.Spec

/-! ### Helpers -/

/-- The state after reset, then the bytes in IN_BUF[0..] and the length in IN_LEN. -/
def loaded (bytes : List Byte) (len : BitVec 16) : State :=
  { State.reset with inBuf := Memory.writeFrom [] 0 bytes, inLen := len }

/-- Bytes, with their number as the length. -/
def input (bytes : List Byte) : State := loaded bytes (BitVec.ofNat 16 bytes.length)

/-- `s` with one access pending. -/
def offering (a : HostAccess) (s : State) : State := { s with pending := [.access a] }

/-- The results, OUT_LEN and STATUS of an outcome; none where there is no next state or a result is unwritten. -/
def outputs (o : Host.Outcome State Fault Refusal) : Option (List Byte × Nat × Nat) :=
  match o with
  | .next t => (Memory.readFrom t.outBuf 0 t.outLen.toNat).map fun bs => (bs, t.outLen.toNat, t.status.toNat)
  | _ => none

/-- What the host has read after one step, the most recent first; none where the step stops. -/
def readsAfter (s : State) : Option (List HostDatum) :=
  match step s with
  | .next t => some t.reads
  | _ => none

/-- Does the outcome stop with the fault UninitRead? -/
def stops (o : Host.Outcome State Fault Refusal) : Bool :=
  match o with
  | .fault .uninitRead => true
  | _ => false

/-- The state of a next outcome, and the reset state otherwise. -/
def nextOf (o : Host.Outcome State Fault Refusal) : State :=
  match o with
  | .next t => t
  | _ => State.reset

/-! ### The checks refuse ill-formed terms -/

theorem test_config_zero_capacity_refused : Config.legal { inCap := 0 } = false := by decide
theorem test_config_capacity_above_3584_refused : Config.legal { inCap := 3585 } = false := by decide
theorem test_config_bounds_accepted : Config.legal { inCap := 1 } = true ∧ Config.legal { inCap := 3584 } = true := by
  decide
theorem test_memory_repeated_key_refused : ¬ Memory.wf [(1, 0x00), (1, 0x00)] := by decide
theorem test_memory_falling_key_refused : ¬ Memory.wf [(2, 0x00), (1, 0x00)] := by decide
theorem test_asm_mnemonic_outside_cmd_refused :
    (HostAsm.sw (.reg .status) (.mnemonic .pack)).wellFormed = false := by decide
theorem test_asm_byte_write_of_out_refused : (HostAsm.sb (.outByte 0) 0xAA).wellFormed = false := by decide
theorem test_asm_word_read_of_in_refused : (HostAsm.lw (.inByte 0)).wellFormed = false := by decide
theorem test_asm_index_past_the_offsets_refused : (HostAsm.lb (.inByte 0xF000)).wellFormed = false := by decide
theorem test_instr_all_well_formed : ∀ i : Instr, i.wellFormed = true := by intro i; cases i <;> rfl

/-! ### Decoding: words written bit by bit from R60 and R61 -/

theorem test_decode_mapf : decodeWord 0b00000000000000000000000000000001 = .command .mapf := by decide
theorem test_decode_mapr : decodeWord 0b00000000000000000000000000000010 = .command .mapr := by decide
theorem test_decode_pack : decodeWord 0b00000000000000000000000000000011 = .command .pack := by decide
theorem test_decode_unpack : decodeWord 0b00000000000000000000000000000100 = .command .unpack := by decide
theorem test_decode_encode : decodeWord 0b00000000000000000000000000000101 = .command .encode := by decide
theorem test_decode_decode : decodeWord 0b00000000000000000000000000000110 = .command .decode := by decide
/-- V49, V50, V51: OP 0, OP 7, and RSV ≠ 0. -/
theorem test_decode_illegal :
    decodeWord 0x00000000 = .illegal ∧ decodeWord 0x00000007 = .illegal ∧ decodeWord 0x00000013 = .illegal ∧
    decodeWord 0x80000001 = .illegal := by decide
theorem test_table_words : decodeTableWord 32 3 = some .pack ∧ decodeTableWord 32 7 = none := by decide

/-! ### Commands -/

/-- V2. -/
theorem test_mapf_special_cases :
    outputs (exec .mapf (input [0x20, 0x23, 0x24, 0x25, 0x3F, 0x40, 0x41, 0x5A])) =
      some ([0x20, 0x23, 0x02, 0x25, 0x3F, 0x00, 0x41, 0x5A], 8, 0) := by decide
/-- V3. -/
theorem test_mapf_upper_ranges :
    outputs (exec .mapf (input [0x5A, 0x5B, 0x5F, 0x60, 0x7A, 0x7B, 0x7F, 0x80, 0xFF])) =
      some ([0x5A, 0x20, 0x20, 0x60, 0x7A, 0x20, 0x20, 0x20, 0x20], 9, 0) := by decide
/-- V5. -/
theorem test_mapr_order_of_cases :
    outputs (exec .mapr (input [0x00, 0x01, 0x02, 0x03, 0x0A, 0x0D, 0x20, 0x24, 0x40])) =
      some ([0x40, 0x20, 0x24, 0x20, 0x0A, 0x0D, 0x20, 0x24, 0x40], 9, 0) := by decide
/-- V7. -/
theorem test_mapr_ignores_bit_7 :
    outputs (exec .mapr (input [0x80, 0x82, 0xC1, 0xFF])) = some ([0x40, 0x24, 0x41, 0x20], 4, 0) := by decide
/-- V20. -/
theorem test_pack_layout :
    outputs (exec .pack (input [0x01, 0x02, 0x04, 0x08, 0x10, 0x20, 0x40, 0x01])) =
      some ([0x01, 0x01, 0x01, 0x01, 0x01, 0x01, 0x03], 7, 0) := by decide
/-- V17: a full group and one septet more. -/
theorem test_pack_second_group :
    outputs (exec .pack (input (List.replicate 9 0x7F))) =
      some ([0xFF, 0xFF, 0xFF, 0xFF, 0xFF, 0xFF, 0xFF, 0x7F], 8, 0) := by decide
/-- V35. -/
theorem test_unpack_eighth_septet :
    outputs (exec .unpack (input [0x41, 0xE1, 0x90, 0x58, 0x34, 0x1E, 0x91])) =
      some ([0x41, 0x42, 0x43, 0x44, 0x45, 0x46, 0x47, 0x48], 8, 0) := by decide
/-- V28 and T4: InputError. -/
theorem test_unpack_input_error : outputs (exec .unpack (input [0xFF])) = some ([], 0, 1) := by decide
/-- V38. -/
theorem test_encode_maps_before_packing :
    outputs (exec .encode (input [0x48, 0x69, 0x24, 0x40])) = some ([0xC8, 0xB4, 0x00, 0x00], 4, 0) := by decide
/-- V43. -/
theorem test_encode_eleven_characters :
    outputs (exec .encode (input [0x68, 0x65, 0x6C, 0x6C, 0x6F, 0x20, 0x77, 0x6F, 0x72, 0x6C, 0x64])) =
      some ([0xE8, 0x32, 0x9B, 0xFD, 0x06, 0xDD, 0xDF, 0x72, 0x36, 0x19], 10, 0) := by decide
/-- T1, the source's fixture. -/
theorem test_decode_fixture :
    outputs (exec .decode (input [0x31, 0xD9, 0x8C, 0x56, 0xB3, 0xDD, 0x70])) =
      some ([0x31, 0x32, 0x33, 0x34, 0x35, 0x36, 0x37, 0x38], 8, 0) := by decide
/-- V44: the extra '@'. -/
theorem test_decode_extra_at :
    outputs (exec .decode (input [0x41, 0xE1, 0x90, 0x58, 0x34, 0x1E, 0x01])) =
      some ([0x41, 0x42, 0x43, 0x44, 0x45, 0x46, 0x47, 0x40], 8, 0) := by decide

/-! ### Conditions and host accesses -/

/-- V52: IN_LEN = IN_CAP + 1, and nothing written. -/
theorem test_length_overflow : outputs (exec .pack (loaded [] 225)) = some ([], 0, 2) := by decide
/-- V55: LengthOverflow comes before InputError. -/
theorem test_length_overflow_before_input_error :
    outputs (step (offering (.writeWord 0x0000 4) (loaded [0xFF] 0xFFFF))) = some ([], 0, 2) := by decide
/-- V56: IllegalCommand comes before LengthOverflow. -/
theorem test_illegal_command_first :
    outputs (step (offering (.writeWord 0x0000 7) (loaded [] 0xFFFF))) = some ([], 0, 4) := by decide
/-- V34 at IN_CAP = 8: a length equal to IN_CAP is no overflow, and OUT_LEN = 9 = OUT_CAP (R22). -/
theorem test_unpack_at_the_capacity :
    outputs (exec .unpack { input (List.replicate 8 0xFF) with config := { inCap := 8 } }) =
      some (List.replicate 9 0x7F, 9, 0) ∧ outCap { inCap := 8 } = 9 := by decide
/-- V57. -/
theorem test_in_len_keeps_sixteen_bits :
    (nextOf (step (offering (.writeWord 0x0008 0x12345678) State.reset))).inLen = 0x5678 := by decide
/-- V58 and V59. -/
theorem test_read_cmd_and_cap :
    readsAfter (offering (.readWord 0x0000) State.reset) = some [.word 0x00000000] ∧
    readsAfter (offering (.readWord 0x0010) State.reset) = some [.word 0x010000E0] := by decide
/-- V60, V61, V62 and V64: unsupported accesses, and an index at or above IN_CAP. -/
theorem test_unsupported_reads :
    readsAfter (offering (.readWord 0x0014) State.reset) = some [.word 0] ∧
    readsAfter (offering (.readWord 0x0006) State.reset) = some [.word 0] ∧
    readsAfter (offering (.readByte 0x0004) State.reset) = some [.byte 0] ∧
    readsAfter (offering (.readByte 0x112C) State.reset) = some [.byte 0] := by decide
/-- V63: a host write to the OUT window is ignored. -/
theorem test_out_window_write_ignored :
    (nextOf (step (offering (.writeByte 0x2000 0xAA) { State.reset with outBuf := [(0, 0xC8)] }))).outBuf =
      [(0, 0xC8)] := by decide
/-- V66 and V67: UninitRead by a host read and by a command. -/
theorem test_uninit_reads :
    stops (step (offering (.readByte 0x2005) State.reset)) = true ∧
    stops (exec .pack (loaded [0x00] 2)) = true := by decide
/-- P2's last line: an OUT_BUF byte above the new OUT_LEN keeps its value. -/
theorem test_out_buf_above_out_len_kept :
    Memory.read (nextOf (exec .mapf { input [0x31] with outBuf := [(7, 0x38)] })).outBuf 7 = some 0x38 := by decide

/-! ### Host programs as text -/

/-- R66 and P1. -/
theorem test_parse_asm :
    parseAsm "sw CMD, ENCODE".toList = some (.sw (.reg .cmd) (.mnemonic .encode)) ∧
    parseAsm "lw @0x0014".toList = some (.lw (.raw 0x0014)) ∧
    parseAsm "sb IN[0], 0x48".toList = some (.sb (.inByte 0) 0x48) ∧
    parseAsm "lb IN[300]".toList = some (.lb (.inByte 300)) := by decide
/-- R66 lists no byte write of OUT_BUF by name. -/
theorem test_parse_asm_refuses : parseAsm "sb OUT[0], 0xAA".toList = none ∧ parseAsm "lw".toList = none := by decide
/-- R67. -/
theorem test_parse_pseudo :
    parsePseudo "run DECODE".toList = some (.run (.mnemonic .decode)) ∧
    parsePseudo "loadstr \"Hi$@\"".toList = some (.loadstr ['H', 'i', '$', '@']) ∧
    parsePseudo "load 0x02, 18".toList = some (.load [0x02, 0x12]) := by decide
/-- R66's decimal numbers, against the bare hexadecimal of P2 and P5 (log entry 13). -/
theorem test_load_bare_numbers_are_decimal :
    parsePseudo "load 48".toList = some (.load [0x30]) ∧ parsePseudo "load 31,D9".toList = none := by decide
/-- P5: `loadstr "Hi$@"` and its tuples. -/
theorem test_loadstr_tuples :
    (expandPseudo 0 (.loadstr ['H', 'i', '$', '@'])).map assemble =
      [.writeByte 0x1000 0x48, .writeByte 0x1001 0x69, .writeByte 0x1002 0x24, .writeByte 0x1003 0x40,
        .writeWord 0x0008 0x00000004] := by decide
/-- R68 and D25. -/
theorem test_tuple_text :
    tupleText (.writeWord 0x0008 0x00000008) = "W4 0008 00000008".toList ∧
    tupleText (.readByte 0x112C) = "R1 112C".toList ∧
    parseTuple "W1 2000 AA".toList = some (.writeByte 0x2000 0xAA) ∧
    parseTuple "W1 2000 A".toList = none := by decide

/-! ### Witnesses: states and operands that meet the hypotheses of each statement, at the boundaries of its ranges -/

/-- `s` with reset asserted. -/
def inReset (s : State) : State := { s with resetAsserted := true }

/-- `t` after the host has copied its results to IN_BUF and written IN_LEN. -/
def copiedBack (t : State) : State := { t with inBuf := t.outBuf, inLen := t.outLen }

/-- A state that has completed a command: MAPF of '$', '@', 'A'. -/
def afterMapf : State := nextOf (exec .mapf (input [0x24, 0x40, 0x41]))

theorem witness_AfterResetHoldsResetValues :
    Config.legal { inCap := 1 } = true ∧ Config.legal { inCap := 3584 } = true := by decide

theorem witness_ResetInputHoldsAndClearsTheCore :
    (inReset (offering (.readWord 0x0004) afterMapf)).resetAsserted = true ∧
    (inReset (offering (.readWord 0x0004) afterMapf)).pending = [.access (.readWord 0x0004)] ∧
    (inReset { afterMapf with pending := [.releaseReset] }).resetAsserted = true ∧
    (inReset { afterMapf with pending := [.releaseReset] }).pending = [.releaseReset] ∧
    ({ afterMapf with pending := [.assertResetDuring 1, .releaseReset] } : State).pending =
      [.assertResetDuring 1, .releaseReset] := ⟨rfl, rfl, rfl, rfl, rfl⟩

theorem witness_IdleCoreStartsNothing : afterMapf.pending = [] := rfl

theorem witness_OpcodeMapWordsDecode : decodeWord 6 = .command .decode := by decide

theorem witness_DecodeAndEncodeAgree :
    Instr.wellFormed .decode = true ∧ decodeWord 0x00000006 = .command .decode := by decide

theorem witness_IllegalWordRaisesIllegalCommand :
    (0x00000007 : Word) ∉ commandWords ∧ (0x00000000 : Word) ∉ commandWords ∧ (0x00000011 : Word) ∉ commandWords ∧
    (offering (.writeWord 0x0000 0x00000007) State.reset).Offers (.writeWord 0x0000 0x00000007) [] :=
  ⟨by decide, by decide, by decide, rfl, rfl⟩

theorem witness_StepRunsTheCommandWrittenToCmd :
    ((offering (.writeWord 0x0000 3) State.reset).Offers (.writeWord 0x0000 3) [] ∧ decodeWord 3 = .command .pack) ∧
    ((offering (.writeWord 0x0000 0) State.reset).Offers (.writeWord 0x0000 0) [] ∧ decodeWord 0 = .illegal) ∧
    (offering (.readWord 0x0000) State.reset).Offers (.readWord 0x0000) [] :=
  ⟨⟨⟨rfl, rfl⟩, by decide⟩, ⟨⟨rfl, rfl⟩, by decide⟩, rfl, rfl⟩

theorem witness_InLenStoresSixteenBits :
    (offering (.writeWord 0x0008 0xFFFFFFFF) State.reset).Offers (.writeWord 0x0008 0xFFFFFFFF) [] ∧
    (offering (.readWord 0x0008) afterMapf).Offers (.readWord 0x0008) [] ∧
    ∃ t, exec .mapf (input [0x24]) = .next t := ⟨⟨rfl, rfl⟩, ⟨rfl, rfl⟩, _, rfl⟩

theorem witness_ReadOnlyRegistersIgnoreWrites :
    (offering (.writeWord 0x0004 0xFFFFFFFF) State.reset).Offers (.writeWord 0x0004 0xFFFFFFFF) [] ∧
    (offering (.writeWord 0x0010 1) State.reset).Offers (.writeWord 0x0010 1) [] ∧
    (offering (.readWord 0x0004) afterMapf).Offers (.readWord 0x0004) [] ∧
    (offering (.readWord 0x000C) afterMapf).Offers (.readWord 0x000C) [] :=
  ⟨⟨rfl, rfl⟩, ⟨rfl, rfl⟩, ⟨rfl, rfl⟩, rfl, rfl⟩

theorem witness_CapReadsTheCapacities :
    State.reset.config.legal = true ∧ (offering (.readWord 0x0010) State.reset).Offers (.readWord 0x0010) [] ∧
    (offering (.writeWord 0x0010 1) State.reset).Offers (.writeWord 0x0010 1) [] :=
  ⟨by decide, ⟨rfl, rfl⟩, rfl, rfl⟩

theorem witness_UnsupportedAccessesReadZeroOrDoNothing :
    ((0x0014 : Offset) ∉ [(0x0000 : Offset), 0x0004, 0x0008, 0x000C, 0x0010] ∧
      (offering (.readWord 0x0014) State.reset).Offers (.readWord 0x0014) [] ∧
      (offering (.writeWord 0x0002 1) State.reset).Offers (.writeWord 0x0002 1) []) ∧
    ((0x0FFF : Offset).toNat < 0x1000 ∧ 0x3000 ≤ (0x3000 : Offset).toNat ∧
      (offering (.readByte 0x0FFF) State.reset).Offers (.readByte 0x0FFF) [] ∧
      (offering (.writeByte 0x3000 1) State.reset).Offers (.writeByte 0x3000 1) []) :=
  ⟨⟨by decide, ⟨rfl, rfl⟩, rfl, rfl⟩, by decide, by decide, ⟨rfl, rfl⟩, rfl, rfl⟩

theorem witness_InWindowReachesInBuf :
    (offering (.writeByte 0x10DF 1) State.reset).Offers (.writeByte (BitVec.ofNat 16 (0x1000 + 223)) 1) [] ∧
    223 < State.reset.config.inCap ∧ State.reset.config.inCap ≤ 224 ∧
    (offering (.readByte 0x1000) (input [0x24])).Offers (.readByte (BitVec.ofNat 16 (0x1000 + 0))) [] ∧
    Memory.read (input [0x24]).inBuf 0 = some 0x24 ∧
    Memory.read (offering (.readByte 0x10DF) State.reset).inBuf 223 = none ∧
    (offering (.readByte 0x10E0) State.reset).Offers (.readByte (BitVec.ofNat 16 (0x1000 + 224))) [] ∧
    (offering (.readWord 0x1FFF) State.reset).Offers (.readWord (BitVec.ofNat 16 (0x1000 + 0xFFF))) [] :=
  ⟨⟨rfl, rfl⟩, by decide, by decide, ⟨rfl, rfl⟩, by decide, by decide, ⟨rfl, rfl⟩, rfl, rfl⟩

theorem witness_OutWindowIsReadOnly :
    (offering (.writeByte 0x2000 0xAA) afterMapf).Offers (.writeByte (BitVec.ofNat 16 (0x2000 + 0)) 0xAA) [] ∧
    (offering (.readByte 0x2002) afterMapf).Offers (.readByte (BitVec.ofNat 16 (0x2000 + 2))) [] ∧
    Memory.read afterMapf.outBuf 2 = some 0x41 ∧ 2 < 8 * afterMapf.config.inCap / 7 ∧
    Memory.read afterMapf.outBuf 3 = none ∧
    (offering (.readByte 0x2100) afterMapf).Offers (.readByte (BitVec.ofNat 16 (0x2000 + 256))) [] ∧
    8 * afterMapf.config.inCap / 7 ≤ 256 :=
  ⟨⟨rfl, rfl⟩, ⟨rfl, rfl⟩, by decide, by decide, by decide, ⟨rfl, rfl⟩, by decide⟩

theorem witness_HostReadsHaveNoSideEffect :
    (offering (.readByte 0x2000) afterMapf).Offers (.readByte 0x2000) [] ∧
    ∃ t, step (offering (.readByte 0x2000) afterMapf) = .next t := ⟨⟨rfl, rfl⟩, _, rfl⟩

theorem witness_afterMapf_inv : afterMapf.Inv :=
  ⟨by decide, by decide, by decide, by decide, by decide, by decide, by decide, by decide,
    fun j hj => Option.isSome_iff_exists.1
      ((by decide : ∀ j < afterMapf.outLen.toNat, (Memory.read afterMapf.outBuf j).isSome = true) j hj),
    by decide⟩

theorem witness_ResultsStayUntilTheNextCommand :
    ((offering (.writeByte 0x1000 1) afterMapf).Offers (.writeByte 0x1000 1) [] ∧
      (∀ w, HostAccess.writeByte 0x1000 1 ≠ .writeWord 0x0000 w) ∧
      ∃ t, step (offering (.writeByte 0x1000 1) afterMapf) = .next t) ∧
    ((0x0008 : Offset) ≠ 0x0000 ∧ (offering (.writeWord 0x0008 1) afterMapf).Offers (.writeWord 0x0008 1) []) ∧
    ((offering (.readByte 0x2002) afterMapf).Inv ∧ 2 < (offering (.readByte 0x2002) afterMapf).outLen.toNat ∧
      (offering (.readByte 0x2002) afterMapf).Offers (.readByte (BitVec.ofNat 16 (0x2000 + 2))) []) :=
  ⟨⟨⟨rfl, rfl⟩, by simp, _, rfl⟩, ⟨by decide, rfl, rfl⟩,
    ⟨witness_afterMapf_inv.1, witness_afterMapf_inv.2, witness_afterMapf_inv.3, witness_afterMapf_inv.4,
      witness_afterMapf_inv.5, witness_afterMapf_inv.6, witness_afterMapf_inv.7, witness_afterMapf_inv.8,
      witness_afterMapf_inv.9, by decide⟩, by decide, rfl, rfl⟩

theorem witness_HostReadAfterWriteReturnsTheLatest :
    0 < (input [0x24]).config.inCap ∧ 223 < (input [0x24]).config.inCap ∧
    Memory.read (input [0x24]).inBuf 0 = some 0x24 ∧
    ({ input [0x24] with pending := [.access (.writeByte 0x10DF 1), .access (.readByte 0x1000)] } : State).Offers
      (.writeByte (BitVec.ofNat 16 (0x1000 + 223)) 1)
      [.access (.readByte (BitVec.ofNat 16 (0x1000 + 0)))] :=
  ⟨by decide, by decide, by decide, rfl, rfl⟩

/-- The last index of each window that holds a byte, a command with one byte too few, and an idle state. -/
theorem witness_StepStopsOnlyOnAnUnwrittenRead :
    (offering (.readByte 0x10DF) State.reset).ReadsUnwritten ∧
    (offering (.readByte 0x20FF) State.reset).ReadsUnwritten ∧
    (offering (.writeWord 0x0000 3) (loaded [0x00] 2)).ReadsUnwritten ∧ ¬ State.reset.ReadsUnwritten := by
  refine ⟨.inl ⟨223, [], ⟨rfl, rfl⟩, by decide, by decide, by decide⟩,
    .inr (.inl ⟨255, [], ⟨rfl, rfl⟩, by decide, by decide, by decide⟩),
    .inr (.inr ⟨3, .pack, [], ⟨rfl, rfl⟩, by decide, by decide, 1, by decide, by decide⟩), ?_⟩
  rintro (⟨i, rest, ⟨_, h⟩, _⟩ | ⟨j, rest, ⟨_, h⟩, _⟩ | ⟨w, i, rest, ⟨_, h⟩, _⟩) <;> cases h

/-- One element written, for MAPF, MAPR, PACK, ENCODE; the clause above the capacity is met at IN_CAP + 1. -/
theorem witness_HoldsInput :
    (input [0x24]).HoldsInput (fun _ => 0x24) ∧
    (loaded [] 225).config.inCap < (loaded [] 225).inLen.toNat ∧
    (loaded [] 0).HoldsInput (fun _ => 0x00) ∧ (input [0x24]).config.legal = true :=
  ⟨⟨by decide, by decide⟩, by decide, ⟨by decide, by decide⟩, by decide⟩

/-- UNPACK and DECODE: one high octet, one low octet, and two octets. -/
theorem witness_HoldsInput_octets :
    ((input [0x80]).HoldsInput (fun _ => 0x80) ∧ (input [0x80]).inLen = 1 ∧ (0x80 : Byte).getLsbD 7 = true) ∧
    ((input [0x7F]).HoldsInput (fun _ => 0x7F) ∧ ¬ ((input [0x7F]).inLen = 1 ∧ (0x7F : Byte).getLsbD 7 = true) ∧
      ¬ ((input [0x7F]).inLen = 1 ∧ 127 < (0x7F : Byte).toNat)) ∧
    ((input [0xFF, 0xFF]).HoldsInput (fun _ => 0xFF) ∧
      ¬ ((input [0xFF, 0xFF]).inLen = 1 ∧ (0xFF : Byte).getLsbD 7 = true) ∧
      8 * (input [0xFF, 0xFF]).inLen.toNat / 7 ≤ (input [0xFF, 0xFF]).config.inCap) :=
  ⟨⟨⟨by decide, by decide⟩, by decide, by decide⟩, ⟨⟨by decide, by decide⟩, by decide, by decide⟩,
    ⟨by decide, by decide⟩, by decide, by decide⟩

theorem witness_CommandRunsExactlyWhenReady :
    (loaded [] 225).commandReady ∧ (loaded [] 0).commandReady ∧ ¬ (loaded [] 1).commandReady := by
  refine ⟨.inl (by decide), .inr (fun i hi => absurd hi (by simp [loaded])), ?_⟩
  rintro (h | h)
  · exact absurd h (by decide)
  · obtain ⟨v, hv⟩ := h 0 (by decide)
    exact absurd hv (by simp [loaded, Memory.writeFrom])

theorem witness_CommandsChangeOnlyTheirOutputs :
    (input [0x24]).config.legal = true ∧ ∃ t, exec .encode (input [0x24]) = .next t := ⟨by decide, _, rfl⟩

theorem witness_InputErrorExactlyOnOneHighOctet :
    1 ≤ (input [0x80]).config.inCap ∧ (input [0x80]).inLen = 1 ∧ Memory.read (input [0x80]).inBuf 0 = some 0x80 ∧
    127 < (0x80 : Byte).toNat := by decide

theorem witness_LengthOverflowExactlyAboveCapacity :
    (loaded [] 225).config.inCap < (loaded [] 225).inLen.toNat ∧
    ∃ t, exec .mapr (loaded [] 225) = .next t ∧ t.status = 2 := ⟨by decide, _, rfl, by decide⟩

/-- One state for each clause of the order of checks. -/
theorem witness_ConditionsAreCheckedInOrder :
    ((offering (.writeWord 0x0000 7) (loaded [] 225)).Offers (.writeWord 0x0000 7) [] ∧ (7 : Word) ∉ commandWords) ∧
    ((offering (.writeWord 0x0000 4) (loaded [0xFF] 225)).Offers (.writeWord 0x0000 4) [] ∧
      (4 : Word) ∈ commandWords ∧ (loaded [0xFF] 225).config.inCap < (loaded [0xFF] 225).inLen.toNat) ∧
    ((offering (.writeWord 0x0000 4) (input [0x80])).Offers (.writeWord 0x0000 4) [] ∧
      (input [0x80]).inLen.toNat ≤ (input [0x80]).config.inCap ∧ (input [0x80]).inLen = 1 ∧
      Memory.read (input [0x80]).inBuf 0 = some 0x80 ∧ (0x80 : Byte).getLsbD 7 = true) ∧
    ((offering (.writeWord 0x0000 3) (input [0x80])).Offers (.writeWord 0x0000 3) [] ∧ (3 : Word) ∈ commandWords ∧
      ¬ ((3 : Word) = 0x00000004 ∨ (3 : Word) = 0x00000006) ∧
      ∀ i < (input [0x80]).inLen.toNat, (Memory.read (input [0x80]).inBuf i).isSome = true) :=
  ⟨⟨⟨rfl, rfl⟩, by decide⟩, ⟨⟨rfl, rfl⟩, by decide, by decide⟩,
    ⟨⟨rfl, rfl⟩, by decide, by decide, by decide, by decide⟩, ⟨rfl, rfl⟩, by decide, by decide, by decide⟩

/-- Two states that agree on the operands alone: their OUT_BUF, OUT_LEN and STATUS differ. -/
theorem witness_OutputsDependOnOperandsAlone :
    afterMapf.config = (input [0x24, 0x40, 0x41]).config ∧ afterMapf.inLen = (input [0x24, 0x40, 0x41]).inLen ∧
    (∀ i < (input [0x24, 0x40, 0x41]).inLen.toNat,
      Memory.read afterMapf.inBuf i = Memory.read (input [0x24, 0x40, 0x41]).inBuf i) ∧
    afterMapf.outBuf ≠ (input [0x24, 0x40, 0x41]).outBuf := by decide

theorem witness_RepeatedCommandChangesNothing :
    afterMapf.Inv ∧ ∃ t, exec .pack afterMapf = .next t := ⟨witness_afterMapf_inv, _, rfl⟩

/-- Both cases of the maps' statements occur. -/
theorem witness_MapStatements :
    excluded 0x5B = true ∧ excluded 0x5A = false ∧ safeCharacter 0x24 = true ∧ safeCharacter 0x80 = false ∧
    toCharacter (toCodePoint 0x24) = 0x24 ∧ (1 : CodePoint) ≠ 0 ∧ excluded (1 : CodePoint).toNat = true := by decide

/-- Lengths with remainders 0, 1, 7 of 8, and 0, 1, 6 of 7. -/
theorem witness_LengthLaws :
    packedLength 8 = 7 ∧ packedLength 9 = 8 ∧ packedLength 15 = 14 ∧
    unpackedCount 7 = 8 ∧ unpackedCount 8 = 9 ∧ unpackedCount 6 = 6 := by decide

/-- Septets 0, 1 and 7 of a group of eight: none, some and all of their bits lie high. -/
theorem witness_SeptetsLandInTheirOctets :
    0 < ([1, 2, 3, 4, 5, 6, 7, 8] : List CodePoint).length ∧ 7 < ([1, 2, 3, 4, 5, 6, 7, 8] : List CodePoint).length ∧
    1 ≤ 1 % 8 ∧ 6 < 7 % 8 := by decide

/-- Two octet sequences that differ in a tail bit alone, and one whose tail bits are clear. -/
theorem witness_TailBitsAreIgnored :
    (∀ x < 8 * 2 - 2 % 7,
      octetBit (([0xFF, 0xFF] : List Byte).getD · 0) x = octetBit (([0xFF, 0x3F] : List Byte).getD · 0) x) ∧
    (∀ x, 8 - 2 % 7 ≤ x → x < 8 → (([0xFF, 0x3F] : List Byte).getD 1 0).getLsbD x = false) := by
  refine ⟨by decide, fun x h1 h2 => ?_⟩
  have : x = 6 ∨ x = 7 := by omega
  rcases this with rfl | rfl <;> decide

/-- The host's copy of a result, for the four statements on the composition. -/
theorem witness_CopiedBack :
    CopiedBack afterMapf (copiedBack afterMapf) 3 ∧ (input [0x24, 0x40, 0x41]).inLen.toNat = 3 ∧
    (nextOf (exec .unpack (input [0xFF, 0xFF]))).status = 0 ∧
    CopiedBack (nextOf (exec .unpack (input [0xFF, 0xFF])))
      (copiedBack (nextOf (exec .unpack (input [0xFF, 0xFF])))) 2 :=
  ⟨⟨rfl, by decide, fun _ _ => rfl⟩, by decide, by decide, rfl, by decide, fun _ _ => rfl⟩

/-- A ready state within its capacity, for the two statements of R142. -/
theorem witness_readyWithinCapacity :
    (input [0xFF, 0xFF]).config.legal = true ∧ (input [0xFF, 0xFF]).commandReady ∧
    (input [0xFF, 0xFF]).inLen.toNat ≤ (input [0xFF, 0xFF]).config.inCap :=
  ⟨by decide, .inr (fun i hi => Option.isSome_iff_exists.1
    ((by decide : ∀ i < (input [0xFF, 0xFF]).inLen.toNat,
      (Memory.read (input [0xFF, 0xFF]).inBuf i).isSome = true) i hi)), by decide⟩

/-- n = 7, the length whose decoding is one character longer. -/
theorem witness_DecodeOfEncodeGivesTheTextBack :
    (input (List.replicate 7 0x41)).HoldsInput (fun _ => 0x41) ∧ 1 ≤ (input (List.replicate 7 0x41)).inLen.toNat ∧
    (input (List.replicate 7 0x41)).inLen.toNat % 8 = 7 :=
  ⟨⟨by decide, by decide⟩, by decide, by decide⟩

theorem witness_EveryStepKeepsTheInvariant :
    afterMapf.Inv ∧ ∃ t, step afterMapf = .next t := ⟨witness_afterMapf_inv, _, rfl⟩

theorem witness_LoadFillsInBufAndInLen :
    State.reset.config.legal = true ∧ ([0x48, 0x69] : List Byte).length ≤ State.reset.config.inCap ∧
    State.reset.resetAsserted = false ∧ State.reset.pending = [] := by decide

theorem witness_DumpReadsTheResults :
    afterMapf.Inv ∧ afterMapf.resetAsserted = false ∧ afterMapf.pending = [] ∧ afterMapf.outLen.toNat = 3 :=
  ⟨witness_afterMapf_inv, rfl, rfl, by decide⟩

theorem witness_AssemblyFormsAreTheirTuples : 0xEFFF < 0xF000 ∧ 0xDFFF < 0xE000 := by decide

end Sys2Proof.Tests
end

/-! The invariant. What one event can make of a state is said once (`State.AccessEffect`, `performEvent_next_cases`,
`step_next_cases`), and each of these effects keeps the invariant. -/

namespace Sys2Proof.Machine

/-- What one accepted host access can make of the state `s`: nothing, a raised condition, a completed command whose
results fit OUT_BUF, a datum returned to the host, one IN_BUF byte, or IN_LEN. -/
inductive State.AccessEffect (s : State) : State → Prop where
  | unchanged : AccessEffect s s
  | raised (c : Condition) : AccessEffect s (raise c s)
  | completed (results : List Byte) (fits : results.length ≤ outCap s.config) : AccessEffect s (complete results s)
  | returned (d : HostDatum) : AccessEffect s (returnDatum d s)
  | inByteWritten (i : Nat) (v : Byte) (below : i < s.config.inCap) :
    AccessEffect s { s with inBuf := Memory.write s.inBuf i v }
  | inLenWritten (n : BitVec 16) : AccessEffect s { s with inLen := n }

/-! ### The effects the model's operations have -/

theorem exec_accessEffect {i : Instr} {s t : State} (h : exec i s = .next t) : s.AccessEffect t := by
  rcases exec_next_cases h with ⟨_, rfl⟩ | ⟨_, _, _, _, _, _, rfl⟩ | ⟨bs, hl, hb, _, rfl⟩
  · exact .raised _
  · exact .raised _
  · obtain ⟨hlen, _⟩ := (inputBytes_eq_some_iff s bs).1 hb
    exact .completed _ (length_commandTransform_le i bs s.config (hlen ▸ hl))

theorem startCommand_accessEffect {w : Word} {s t : State} (h : startCommand w s = .next t) : s.AccessEffect t := by
  unfold startCommand at h
  split at h
  · cases h; exact .raised _
  · exact exec_accessEffect h

theorem hostWriteWord_accessEffect {off : Offset} {w : Word} {s t : State}
    (h : hostWriteWord off w s = .next t) : s.AccessEffect t := by
  unfold hostWriteWord at h
  split at h
  · exact startCommand_accessEffect h
  · cases h; exact .inLenWritten _
  all_goals cases h; exact .unchanged

theorem hostWriteByte_accessEffect (off : Offset) (v : Byte) (s : State) :
    s.AccessEffect (hostWriteByte off v s) := by
  unfold hostWriteByte
  split
  · next i htarget =>
    obtain ⟨_, _, below⟩ := (byteTarget_eq_inByte_iff _ _ _).1 htarget
    exact .inByteWritten i v below
  · exact .unchanged
  · exact .unchanged

theorem performAccess_accessEffect {a : HostAccess} {s t : State} (h : performAccess a s = .next t) :
    s.AccessEffect t := by
  cases a with
  | readByte off =>
    simp only [performAccess] at h
    split at h
    · cases h
    · cases h; exact .returned _
  | readWord off => cases h; exact .returned _
  | writeByte off v => cases h; exact hostWriteByte_accessEffect off v s
  | writeWord off w => exact hostWriteWord_accessEffect h

/-- Everything an event can have done when it answers a next state: nothing, a reset of every item, or, with reset not
asserted, the effect of an access (R180). -/
theorem performEvent_next_cases {e : HostEvent} {s t : State} (h : performEvent e s = .next t) :
    t = s ∨ (∃ asserted, t = resetItems asserted s) ∨ (s.resetAsserted = false ∧ s.AccessEffect t) := by
  cases e with
  | access a =>
    simp only [performEvent] at h
    split at h
    · cases h; exact .inl rfl
    · next hr => exact .inr (.inr ⟨Bool.eq_false_of_not_eq_true hr, performAccess_accessEffect h⟩)
  | assertReset => cases h; exact .inr (.inl ⟨true, rfl⟩)
  | assertResetDuring w => cases h; exact .inr (.inl ⟨true, rfl⟩)
  | releaseReset =>
    simp only [performEvent] at h
    split at h
    · cases h; exact .inr (.inl ⟨false, rfl⟩)
    · cases h; exact .inl rfl

/-- A step that answers a next state has done nothing, or has taken one event off the queue and performed it. -/
theorem step_next_cases {s t : State} (h : step s = .next t) :
    t = s ∨ ∃ e rest, s.pending = e :: rest ∧ performEvent e { s with pending := rest } = .next t := by
  unfold step performNext at h
  split at h
  · cases h; exact .inl rfl
  · next e rest hp => exact .inr ⟨e, rest, hp, h⟩

/-! ### Each effect keeps the invariant -/

/-- A raised condition sets one STATUS bit (R165). -/
theorem conditionStatus_oneBit (c : Condition) :
    conditionStatus c = 1 ∨ conditionStatus c = 2 ∨ conditionStatus c = 4 := by
  cases c <;> simp

/-- OUT_CAP of a legal capacity fits the 16 bits of OUT_LEN (R6). -/
theorem outCap_lt_of_legal {c : Config} (h : c.legal = true) : outCap c < 2 ^ 16 := by
  simp only [Config.legal, Bool.and_eq_true, decide_eq_true_eq] at h
  simp only [outCap]
  omega

/-- The events still to come are no part of the invariant. -/
theorem State.Inv.withPending {s : State} (hs : s.Inv) (events : List HostEvent) :
    State.Inv { s with pending := events } :=
  { hs with }

theorem State.Inv.resetItems {s : State} (hs : s.Inv) (asserted : Bool) : (resetItems asserted s).Inv where
  configLegal := hs.configLegal
  inBufWf := .nil
  inBufBound := by simp
  outBufWf := .nil
  outBufBound := by simp
  outLenBound := by simp
  statusOneBit := .inl rfl
  conditionEmpty := fun _ => rfl
  outWritten := by simp
  resetHeld := by simp

theorem State.Inv.raise {s : State} (hs : s.Inv) (hr : s.resetAsserted = false) (c : Condition) :
    (raise c s).Inv :=
  { hs with
    outLenBound := by simp
    statusOneBit := .inr (conditionStatus_oneBit c)
    conditionEmpty := fun _ => rfl
    outWritten := by simp
    resetHeld := by simp [hr] }

/-- Results that fit OUT_BUF leave an OUT_LEN that counts them all. -/
theorem toNat_complete_outLen {s : State} (hs : s.Inv) {results : List Byte}
    (fits : results.length ≤ outCap s.config) : (complete results s).outLen.toNat = results.length := by
  have := outCap_lt_of_legal hs.configLegal
  rw [complete_outLen, BitVec.toNat_ofNat, Nat.mod_eq_of_lt (by omega)]

theorem State.Inv.complete {s : State} (hs : s.Inv) (hr : s.resetAsserted = false) {results : List Byte}
    (fits : results.length ≤ outCap s.config) : (complete results s).Inv :=
  { hs with
    outBufWf := Memory.writeFrom_wf 0 results hs.outBufWf
    outBufBound := fun c hc => by
      rcases Memory.mem_writeFrom hc with ⟨_, hlt⟩ | hold
      · rw [complete_config]; omega
      · exact hs.outBufBound c hold
    outLenBound := (toNat_complete_outLen hs fits).le.trans fits
    statusOneBit := .inl rfl
    conditionEmpty := by simp
    outWritten := fun j hj => by
      rw [toNat_complete_outLen hs fits] at hj
      exact ⟨results[j], by rw [read_complete, if_pos hj, List.getElem?_eq_getElem hj]⟩
    resetHeld := by simp [hr] }

theorem State.Inv.writeInByte {s : State} (hs : s.Inv) (hr : s.resetAsserted = false) {i : Nat} (v : Byte)
    (below : i < s.config.inCap) : State.Inv { s with inBuf := Memory.write s.inBuf i v } :=
  { hs with
    inBufWf := Memory.write_wf i v hs.inBufWf
    inBufBound := fun c hc => by
      rcases Memory.mem_write hc with rfl | hold
      · exact below
      · exact hs.inBufBound c hold
    resetHeld := by simp [hr] }

theorem State.Inv.accessEffect {s t : State} (hs : s.Inv) (hr : s.resetAsserted = false) (h : s.AccessEffect t) :
    t.Inv := by
  cases h with
  | unchanged => exact hs
  | raised c => exact hs.raise hr c
  | completed results fits => exact hs.complete hr fits
  | returned d => exact { hs with }
  | inByteWritten i v below => exact hs.writeInByte hr v below
  | inLenWritten n => exact { hs with resetHeld := by simp [hr] }

theorem State.AccessEffect.config_eq {s t : State} (h : s.AccessEffect t) : t.config = s.config := by
  cases h <;> rfl

theorem performEvent_keepsInv {e : HostEvent} {s t : State} (hs : s.Inv) (h : performEvent e s = .next t) :
    t.Inv ∧ t.config = s.config := by
  rcases performEvent_next_cases h with rfl | ⟨asserted, rfl⟩ | ⟨hr, heffect⟩
  · exact ⟨hs, rfl⟩
  · exact ⟨hs.resetItems asserted, rfl⟩
  · exact ⟨hs.accessEffect hr heffect, heffect.config_eq⟩

/-- Settles O51: a step does nothing, or performs one event, which keeps the invariant whatever comes after it in the queue.
(The clause `resetHeld` is the model's choice, log entry 5: it holds since an access has an effect only while reset is not
asserted.) -/
theorem everyStepKeepsTheInvariant : Obligations.EveryStepKeepsTheInvariant := by
  intro s t hs h
  rcases step_next_cases h with rfl | ⟨e, rest, _, hevent⟩
  · exact ⟨hs, rfl⟩
  · obtain ⟨hinv, hconfig⟩ := performEvent_keepsInv (hs.withPending rest) hevent
    exact ⟨hinv, hconfig⟩

end Sys2Proof.Machine

/-! The registers at the host port, what a command leaves alone, when it runs, and what its outputs depend on. A step
that accesses a register is computed once per kind of access; a command that answers a next state has raised a condition
or completed (`exec_raise_or_complete`). -/

namespace Sys2Proof.Machine

/-! ### Steps that access a register -/

/-- A read of a register returns its value and changes nothing else (R23 to R28). -/
theorem step_readReg {s : State} {rest : List HostEvent} (r : Reg) (h : s.Offers (.readWord (regOffset r)) rest) :
    step s = .next { s with pending := rest, reads := .word (readReg s r) :: s.reads } := by
  have hreg : readReg { s with pending := rest } r = readReg s r := by cases r <;> rfl
  simp only [step_offers h, performAccess, hostReadWord_regOffset, hreg, returnDatum]

/-- A write of IN_LEN stores the low 16 bits and changes nothing else (R23). -/
theorem step_writeInLen {s : State} {w : Word} {rest : List HostEvent}
    (h : s.Offers (.writeWord (regOffset .inLen) w) rest) :
    step s = .next { s with pending := rest, inLen := w.setWidth 16 } := by
  simp only [step_offers h, performAccess, hostWriteWord, regAt_regOffset]

/-- A write to a register other than CMD and IN_LEN has no effect (R24 to R26). -/
theorem step_writeReadOnlyReg {s : State} {w : Word} {rest : List HostEvent} {r : Reg} (hcmd : r ≠ .cmd)
    (hinLen : r ≠ .inLen) (h : s.Offers (.writeWord (regOffset r) w) rest) :
    step s = .next { s with pending := rest } := by
  simp only [step_offers h, performAccess, hostWriteWord, regAt_regOffset]
  cases r with
  | cmd => contradiction
  | inLen => contradiction
  | status | outLen | cap => rfl

/-! ### The two halves of CAP -/

theorem capWord_high (c : Config) : (capWord c).extractLsb' 16 16 = BitVec.ofNat 16 (outCap c) :=
  BitVec.extractLsb'_append_eq_left

theorem capWord_low (c : Config) : (capWord c).extractLsb' 0 16 = BitVec.ofNat 16 c.inCap :=
  BitVec.extractLsb'_append_eq_right

/-- A legal IN_CAP fits the 16 bits of CAP (R6). -/
theorem inCap_lt_of_legal {c : Config} (h : c.legal = true) : c.inCap < 2 ^ 16 := by
  simp only [Config.legal, Bool.and_eq_true, decide_eq_true_eq] at h
  omega

/-! ### After reset -/

theorem afterReset_hasResetValues (c : Config) : (State.afterReset c).HasResetValues where
  inBuf := fun i => by simp
  outBuf := fun j => by simp
  inLen := rfl
  outLen := rfl
  status := rfl

theorem afterReset_inv {c : Config} (h : c.legal = true) : (State.afterReset c).Inv where
  configLegal := h
  inBufWf := .nil
  inBufBound := by simp
  outBufWf := .nil
  outBufBound := by simp
  outLenBound := by simp
  statusOneBit := .inl rfl
  conditionEmpty := fun _ => rfl
  outWritten := by simp
  resetHeld := by simp

/-! ### What a command leaves alone -/

theorem sameOutsideOutputs_raise (c : Condition) (s : State) : SameOutsideOutputs s (raise c s) :=
  ⟨rfl, rfl, rfl, rfl, rfl, rfl⟩

theorem sameOutsideOutputs_complete (results : List Byte) (s : State) : SameOutsideOutputs s (complete results s) :=
  ⟨rfl, rfl, rfl, rfl, rfl, rfl⟩

theorem raisedFrom_raise (c : Condition) (s : State) : RaisedFrom s (conditionStatus c) (raise c s) :=
  ⟨rfl, rfl, rfl, sameOutsideOutputs_raise c s⟩

/-- A command that answers a next state has raised a condition, or has completed with results that fit OUT_BUF. -/
theorem exec_raise_or_complete {i : Instr} {s t : State} (h : exec i s = .next t) :
    (∃ c, t = raise c s) ∨ ∃ results, results.length ≤ outCap s.config ∧ t = complete results s := by
  rcases exec_next_cases h with ⟨_, rfl⟩ | ⟨_, _, _, _, _, _, rfl⟩ | ⟨bs, hl, hb, _, rfl⟩
  · exact .inl ⟨_, rfl⟩
  · exact .inl ⟨_, rfl⟩
  · obtain ⟨hlen, _⟩ := (inputBytes_eq_some_iff s bs).1 hb
    exact .inr ⟨_, length_commandTransform_le i bs s.config (hlen ▸ hl), rfl⟩

theorem exec_sameOutsideOutputs {i : Instr} {s t : State} (h : exec i s = .next t) : SameOutsideOutputs s t := by
  rcases exec_raise_or_complete h with ⟨c, rfl⟩ | ⟨results, _, rfl⟩
  · exact sameOutsideOutputs_raise c s
  · exact sameOutsideOutputs_complete results s

/-- An index below OUT_LEN after a completed command is the index of a result, whatever the number of results. -/
theorem lt_length_of_lt_complete_outLen {results : List Byte} {s : State} {j : Nat}
    (h : j < (complete results s).outLen.toNat) : j < results.length := by
  rw [complete_outLen, BitVec.toNat_ofNat] at h
  exact h.trans_le (Nat.mod_le _ _)

/-- Results that fit the OUT_CAP of a legal configuration are counted whole by OUT_LEN. -/
theorem toNat_complete_outLen_of_legal {s : State} (hlegal : s.config.legal = true) {results : List Byte}
    (fits : results.length ≤ outCap s.config) : (complete results s).outLen.toNat = results.length := by
  rw [complete_outLen, BitVec.toNat_ofNat, Nat.mod_eq_of_lt (fits.trans_lt (outCap_lt_of_legal hlegal))]

/-! ### When a command runs -/

theorem commandReady_of_inputBytes {s : State} {bs : List Byte} (hb : inputBytes s = some bs) : s.commandReady := by
  obtain ⟨_, hwritten⟩ := (inputBytes_eq_some_iff s bs).1 hb
  exact .inr fun i hi => ⟨_, hwritten i hi⟩

theorem not_commandReady_of_unwritten {s : State} (hl : s.inLen.toNat ≤ s.config.inCap) (hb : inputBytes s = none) :
    ¬ s.commandReady := by
  obtain ⟨i, hi, hnone⟩ := (inputBytes_eq_none_iff s).1 hb
  rintro (hover | hwritten)
  · exact hover.not_ge hl
  · simpa [hnone] using hwritten i hi

/-- A command that is ready answers a next state, and any other takes the fault UninitRead. -/
theorem exec_by_commandReady (i : Instr) (s : State) :
    (s.commandReady ∧ ∃ t, exec i s = .next t) ∨ (¬ s.commandReady ∧ exec i s = .fault .uninitRead) := by
  rw [exec_eq_runCommand]
  rcases runCommand_cases (commandCheck i) (commandTransform i) s with
    ⟨hover, h⟩ | ⟨hl, hb, h⟩ | ⟨bs, c, _, hb, _, h⟩ | ⟨bs, _, hb, _, h⟩
  · exact .inl ⟨.inl hover, _, h⟩
  · exact .inr ⟨not_commandReady_of_unwritten hl hb, h⟩
  · exact .inl ⟨commandReady_of_inputBytes hb, _, h⟩
  · exact .inl ⟨commandReady_of_inputBytes hb, _, h⟩

/-! ### A CMD write, and what its outputs depend on -/

theorem startCommand_of_command {w : Word} {i : Instr} (h : decodeWord w = .command i) (s : State) :
    startCommand w s = exec i s := by
  simp [startCommand, h]

theorem startCommand_of_illegal {w : Word} (h : decodeWord w = .illegal) (s : State) :
    startCommand w s = .next (raise .illegalCommand s) := by
  simp [startCommand, h]

/-- Two states hold the same operands: IN_CAP, IN_LEN and IN_BUF[0..IN_LEN.LEN-1] (R36). -/
structure SameOperands (s s' : State) : Prop where
  config : s'.config = s.config
  inLen : s'.inLen = s.inLen
  inBuf : ∀ i < s.inLen.toNat, Memory.read s'.inBuf i = Memory.read s.inBuf i

theorem SameOperands.inputBytes_eq {s s' : State} (h : SameOperands s s') : inputBytes s' = inputBytes s := by
  refine Option.ext fun bs => ?_
  rw [inputBytes_eq_some_iff, inputBytes_eq_some_iff, h.inLen]
  exact and_congr_right fun _ => forall₂_congr fun i hi => by rw [h.inBuf i hi]

theorem SameOperands.lengthOverflows_eq {s s' : State} (h : SameOperands s s') :
    lengthOverflows s' = lengthOverflows s := by
  simp [lengthOverflows, h.config, h.inLen]

/-- Two outcomes, of the states `s` and `s'`, are alike: both are the fault UninitRead, both raise the same condition, or
both complete with the same results. -/
inductive SameEffect (s s' : State) :
    Host.Outcome State Fault Refusal → Host.Outcome State Fault Refusal → Prop where
  | fault : SameEffect s s' (.fault .uninitRead) (.fault .uninitRead)
  | raised (c : Condition) : SameEffect s s' (.next (raise c s)) (.next (raise c s'))
  | completed (results : List Byte) : SameEffect s s' (.next (complete results s)) (.next (complete results s'))

theorem SameOperands.runCommand {s s' : State} (h : SameOperands s s') (check : List Byte → Option Condition)
    (f : List Byte → List Byte) : SameEffect s s' (runCommand check f s) (runCommand check f s') := by
  unfold Machine.runCommand
  rw [h.lengthOverflows_eq, h.inputBytes_eq]
  split
  · exact .raised _
  · split
    · exact .fault
    · split
      · exact .raised _
      · exact .completed _

theorem SameOperands.startCommand {s s' : State} (h : SameOperands s s') (w : Word) :
    SameEffect s s' (startCommand w s) (startCommand w s') := by
  cases hw : decodeWord w with
  | illegal =>
    rw [startCommand_of_illegal hw, startCommand_of_illegal hw]
    exact .raised _
  | command i =>
    rw [startCommand_of_command hw, startCommand_of_command hw, exec_eq_runCommand, exec_eq_runCommand]
    exact h.runCommand _ _

/-! ### The statements -/

/-- Settles O9: the write and the read are steps on one register, and the frame of the commands holds IN_LEN. -/
theorem inLenStoresSixteenBits : Obligations.InLenStoresSixteenBits := by
  refine ⟨fun s w rest h => ⟨_, step_writeInLen h, ?_, rfl⟩, fun s rest h => ⟨_, step_readReg .inLen h, ?_⟩,
    fun i s t h => (exec_sameOutsideOutputs h).inLen⟩
  · exact BitVec.toNat_setWidth 16 w
  · exact BitVec.toNat_setWidth_of_le (by omega)

/-- Settles O25: a command that is not ready is one within the capacity with an unwritten operand byte, which is the one
way a command ends in the fault. -/
theorem commandRunsExactlyWhenReady : Obligations.CommandRunsExactlyWhenReady := by
  intro i s
  rcases exec_by_commandReady i s with ⟨hready, t, h⟩ | ⟨hready, h⟩ <;> simp [hready, h]

/-- Settles O26: a raised condition leaves an empty result and OUT_BUF as it was, and a completed command writes its
results, which fit OUT_CAP, and nothing above them. -/
theorem commandsChangeOnlyTheirOutputs : Obligations.CommandsChangeOnlyTheirOutputs := by
  intro i s t hlegal h
  refine ⟨exec_sameOutsideOutputs h, ?_⟩
  rcases exec_raise_or_complete h with ⟨c, rfl⟩ | ⟨results, fits, rfl⟩
  · simp
  · rw [toNat_complete_outLen_of_legal hlegal fits]
    refine ⟨fun j hj => ?_, fun j hj => ⟨results[j], ?_⟩, fits⟩
    · rw [read_complete, if_neg hj.not_gt]
    · rw [read_complete, if_pos hj, List.getElem?_eq_getElem hj]

/-- Settles O31: on the same operands a CMD write faults in both states, raises one condition in both, or completes in both
with the same results, and OUT_BUF below OUT_LEN holds results alone. -/
theorem outputsDependOnOperandsAlone : Obligations.OutputsDependOnOperandsAlone := by
  intro w s s' hconfig hinLen hinBuf
  have heffect := SameOperands.startCommand ⟨hconfig, hinLen, hinBuf⟩ w
  generalize startCommand w s = o, startCommand w s' = o' at heffect
  cases heffect with
  | fault => exact .inl ⟨rfl, rfl⟩
  | raised c => exact .inr ⟨_, _, rfl, rfl, rfl, rfl, by simp⟩
  | completed results =>
    refine .inr ⟨_, _, rfl, rfl, rfl, rfl, fun j hj => ?_⟩
    have hlt := lt_length_of_lt_complete_outLen hj
    rw [read_complete, read_complete, if_pos hlt, if_pos hlt]

/-- Settles O1: every stored item is read off the reset state, and CAP off its two halves. -/
theorem afterResetHoldsResetValues : Obligations.AfterResetHoldsResetValues :=
  ⟨fun c _ => ⟨afterReset_hasResetValues c, rfl, rfl, rfl, rfl, capWord_high c, capWord_low c⟩, rfl, rfl⟩

/-- Settles O7: a step is the access the host offers, and the CMD write goes by what its word decodes to. -/
theorem stepRunsTheCommandWrittenToCmd : Obligations.StepRunsTheCommandWrittenToCmd := by
  refine ⟨fun s w i rest h hw => ?_, fun s w rest h hw => ?_, fun s rest h => step_readReg .cmd h⟩
  · rw [step_offers h, performAccess_cmd, startCommand_of_command hw]
  · rw [step_offers h, performAccess_cmd, startCommand_of_illegal hw]
    exact ⟨_, rfl, raisedFrom_raise .illegalCommand _⟩

/-- Settles O10: none of the three registers is CMD or IN_LEN, and a read extends the stored bits with zeros. -/
theorem readOnlyRegistersIgnoreWrites : Obligations.ReadOnlyRegistersIgnoreWrites := by
  refine ⟨fun s w off rest hoff h => ?_, fun s rest h => ⟨_, step_readReg .status h, ?_⟩,
    fun s rest h => ⟨_, step_readReg .outLen h, ?_⟩⟩
  · rcases hoff with rfl | rfl | rfl
    · exact step_writeReadOnlyReg (r := .status) (by decide) (by decide) h
    · exact step_writeReadOnlyReg (r := .outLen) (by decide) (by decide) h
    · exact step_writeReadOnlyReg (r := .cap) (by decide) (by decide) h
  · exact BitVec.toNat_setWidth_of_le (by omega)
  · exact BitVec.toNat_setWidth_of_le (by omega)

/-- Settles O11: both capacities of a legal configuration fit their half of CAP. -/
theorem capReadsTheCapacities : Obligations.CapReadsTheCapacities := by
  refine ⟨fun s rest hlegal h => ⟨_, step_readReg .cap h, ?_, ?_⟩,
    fun s w rest h => step_writeReadOnlyReg (r := .cap) (by decide) (by decide) h⟩
  · rw [readReg, capWord_high, BitVec.toNat_ofNat, Nat.mod_eq_of_lt (outCap_lt_of_legal hlegal), outCap]
  · rw [readReg, capWord_low, BitVec.toNat_ofNat, Nat.mod_eq_of_lt (inCap_lt_of_legal hlegal)]

/-- Settles O50: with both buffers empty and every register 0 the invariant is the legality of IN_CAP. -/
theorem invariantHoldsAfterReset : Obligations.InvariantHoldsAfterReset :=
  ⟨afterReset_inv (by decide), fun _ h => afterReset_inv h⟩

end Sys2Proof.Machine

/-! The memory map at the host port. The target of a byte-wide access and the register of a word-wide one are said once per
region of the map; a step that reads or writes there is then computed from them. -/

namespace Sys2Proof.Machine

/-! ### The regions of the address map -/

theorem byteTarget_inWindow {i : Nat} (hi : i < 0x1000) (c : Config) :
    byteTarget c (BitVec.ofNat 16 (0x1000 + i)) = if i < c.inCap then .inByte i else .nothing := by
  have hoff : (BitVec.ofNat 16 (0x1000 + i)).toNat = 0x1000 + i := by rw [BitVec.toNat_ofNat]; omega
  rw [byteTarget, hoff, if_pos (by omega), Nat.add_sub_cancel_left]

theorem byteTarget_outWindow {j : Nat} (hj : j < 0x1000) (c : Config) :
    byteTarget c (BitVec.ofNat 16 (0x2000 + j)) = if j < outCap c then .outByte j else .nothing := by
  have hoff : (BitVec.ofNat 16 (0x2000 + j)).toNat = 0x2000 + j := by rw [BitVec.toNat_ofNat]; omega
  rw [byteTarget, hoff, if_neg (by omega), if_pos (by omega), Nat.add_sub_cancel_left]

theorem byteTarget_outside_windows {off : Offset} (h : off.toNat < 0x1000 ∨ 0x3000 ≤ off.toNat) (c : Config) :
    byteTarget c off = .nothing := by
  rw [byteTarget, if_neg (by omega), if_neg (by omega)]

theorem regAt_eq_none {off : Offset} (h : ∀ r, off ≠ regOffset r) : regAt off = none :=
  Option.eq_none_iff_forall_ne_some.2 fun r hr => h r ((regAt_eq_some_iff off r).1 hr)

theorem toNat_regOffset_lt (r : Reg) : (regOffset r).toNat < 0x1000 := by cases r <;> decide

/-- Neither buffer window holds a register (R41). -/
theorem regAt_eq_none_of_window {k : Nat} (hge : 0x1000 ≤ k) (hlt : k < 0x3000) :
    regAt (BitVec.ofNat 16 k) = none := by
  refine regAt_eq_none fun r hr => ?_
  have hreg := toNat_regOffset_lt r
  rw [← hr, BitVec.toNat_ofNat] at hreg
  omega

/-! ### Steps that access the map -/

section Steps

variable {s : State} {off : Offset} {rest : List HostEvent}

theorem step_readByte_written {v : Byte} (h : s.Offers (.readByte off) rest) (hv : hostReadByte s off = some v) :
    step s = .next { s with pending := rest, reads := .byte v :: s.reads } := by
  have hread : hostReadByte { s with pending := rest } off = some v := hv
  simp only [step_offers h, performAccess, hread, returnDatum]

theorem step_readByte_unwritten (h : s.Offers (.readByte off) rest) (hv : hostReadByte s off = none) :
    step s = .fault .uninitRead := by
  have hread : hostReadByte { s with pending := rest } off = none := hv
  simp only [step_offers h, performAccess, hread]

theorem step_readWord (h : s.Offers (.readWord off) rest) :
    step s = .next { s with pending := rest, reads := .word (hostReadWord s off) :: s.reads } := by
  have hread : hostReadWord { s with pending := rest } off = hostReadWord s off := by
    unfold hostReadWord
    split
    · next r _ => cases r <;> rfl
    · rfl
  simp only [step_offers h, performAccess, hread, returnDatum]

/-- A word-wide read where there is no register returns 0 (R44). -/
theorem step_readWord_unsupported (hreg : regAt off = none) (h : s.Offers (.readWord off) rest) :
    step s = .next { s with pending := rest, reads := .word 0 :: s.reads } := by
  simp only [step_readWord h, hostReadWord, hreg]

/-- A word-wide write where there is no register has no effect (R44). -/
theorem step_writeWord_unsupported {w : Word} (hreg : regAt off = none) (h : s.Offers (.writeWord off w) rest) :
    step s = .next { s with pending := rest } := by
  simp only [step_offers h, performAccess, hostWriteWord, hreg]

theorem step_writeByte_inByte {i : Nat} {v : Byte} (htarget : byteTarget s.config off = .inByte i)
    (h : s.Offers (.writeByte off v) rest) :
    step s = .next { s with pending := rest, inBuf := Memory.write s.inBuf i v } := by
  simp only [step_offers h, performAccess, hostWriteByte, htarget]

/-- A byte-wide write has no effect where it does not reach IN_BUF (R42 to R44). -/
theorem step_writeByte_ignored {v : Byte} (htarget : ∀ i, byteTarget s.config off ≠ .inByte i)
    (h : s.Offers (.writeByte off v) rest) : step s = .next { s with pending := rest } := by
  simp only [step_offers h, performAccess, hostWriteByte]
  split
  · next i hi => exact absurd hi (htarget i)
  · rfl
  · rfl

theorem hostReadByte_outside_windows (hoff : off.toNat < 0x1000 ∨ 0x3000 ≤ off.toNat) :
    hostReadByte s off = some 0 := by
  simp only [hostReadByte, byteTarget_outside_windows hoff]

/-- A byte-wide read in the IN window: IN_BUF below IN_CAP, and 0x00 from there on (R42). -/
theorem hostReadByte_inWindow {i : Nat} (hi : i < 0x1000) (s : State) :
    hostReadByte s (BitVec.ofNat 16 (0x1000 + i)) =
      if i < s.config.inCap then Memory.read s.inBuf i else some 0 := by
  rw [hostReadByte, byteTarget_inWindow hi]
  split_ifs <;> rfl

/-- A byte-wide read in the OUT window: OUT_BUF below OUT_CAP, and 0x00 from there on (R43). -/
theorem hostReadByte_outWindow {j : Nat} (hj : j < 0x1000) (s : State) :
    hostReadByte s (BitVec.ofNat 16 (0x2000 + j)) =
      if j < outCap s.config then Memory.read s.outBuf j else some 0 := by
  rw [hostReadByte, byteTarget_outWindow hj]
  split_ifs <;> rfl

end Steps

/-! ### The statements on the address map -/

/-- Settles O12: there is no register at such an offset for a word, and no buffer byte for a byte. -/
theorem unsupportedAccessesReadZeroOrDoNothing : Obligations.UnsupportedAccessesReadZeroOrDoNothing := by
  constructor
  · intro s off rest hoff
    have hreg : regAt off = none := regAt_eq_none fun r hr => hoff (by cases r <;> simp [hr, regOffset])
    exact ⟨step_readWord_unsupported hreg, fun w => step_writeWord_unsupported hreg⟩
  · intro s off rest hoff
    exact ⟨fun h => step_readByte_written h (hostReadByte_outside_windows hoff),
      fun v => step_writeByte_ignored (by simp [byteTarget_outside_windows hoff])⟩

/-- Settles O13: the target in the IN window is IN_BUF[i] or nothing, as i lies below IN_CAP or not. -/
theorem inWindowReachesInBuf : Obligations.InWindowReachesInBuf := by
  intro s i rest hi
  have htarget := byteTarget_inWindow hi s.config
  have hreg : regAt (BitVec.ofNat 16 (0x1000 + i)) = none := regAt_eq_none_of_window (by omega) (by omega)
  refine ⟨fun v h => ?_, fun h => ?_, step_readWord_unsupported hreg, fun w => step_writeWord_unsupported hreg⟩
  · by_cases hcap : i < s.config.inCap
    · rw [if_pos hcap] at htarget
      refine ⟨_, step_writeByte_inByte htarget h, rfl, fun _ => ?_, fun hle => absurd hcap hle.not_gt, fun k hk => ?_⟩
      · rw [Memory.read_write, if_pos rfl]
      · rw [Memory.read_write, if_neg hk.symm]
    · rw [if_neg hcap] at htarget
      exact ⟨_, step_writeByte_ignored (by simp [htarget]) h, rfl, fun hlt => absurd hlt hcap, fun _ => rfl,
        fun _ _ => rfl⟩
  · have hread := hostReadByte_inWindow hi s
    exact ⟨fun v hcap hv => step_readByte_written h (by rw [hread, if_pos hcap, hv]),
      fun hcap hv => step_readByte_unwritten h (by rw [hread, if_pos hcap, hv]),
      fun hcap => step_readByte_written h (by rw [hread, if_neg hcap.not_gt])⟩

/-- Settles O14: the target in the OUT window is OUT_BUF[j] or nothing, as j lies below OUT_CAP or not, and never a byte of
IN_BUF. -/
theorem outWindowIsReadOnly : Obligations.OutWindowIsReadOnly := by
  intro s j rest hj
  have hreg : regAt (BitVec.ofNat 16 (0x2000 + j)) = none := regAt_eq_none_of_window (by omega) (by omega)
  refine ⟨fun v => step_writeByte_ignored fun i => ?_, fun w => step_writeWord_unsupported hreg, fun h => ?_,
    step_readWord_unsupported hreg⟩
  · rw [byteTarget_outWindow hj]
    split <;> simp
  · have hread := hostReadByte_outWindow hj s
    rw [outCap] at hread
    exact ⟨fun v hcap hv => step_readByte_written h (by rw [hread, if_pos hcap, hv]),
      fun hcap hv => step_readByte_unwritten h (by rw [hread, if_pos hcap, hv]),
      fun hcap => step_readByte_written h (by rw [hread, if_neg hcap.not_gt])⟩

/-- Settles O15: a byte-wide read stops or returns one byte, and a word-wide read always returns one word. -/
theorem hostReadsHaveNoSideEffect : Obligations.HostReadsHaveNoSideEffect := by
  rintro s off a rest t (rfl | rfl) h hstep
  · cases hv : hostReadByte s off with
    | none => rw [step_readByte_unwritten h hv] at hstep; cases hstep
    | some v => rw [step_readByte_written h hv] at hstep; cases hstep; exact ⟨_, rfl⟩
  · rw [step_readWord h] at hstep; cases hstep; exact ⟨_, rfl⟩

/-- Settles O17: the write leaves a state that offers the read, and the read finds what the write of IN_BUF[i] left at k. -/
theorem hostReadAfterWriteReturnsTheLatest : Obligations.HostReadAfterWriteReturnsTheLatest := by
  intro s i k v u rest hi hk hiwin hkwin hu h
  have htarget := byteTarget_inWindow hiwin s.config
  rw [if_pos hi] at htarget
  refine ⟨_, _, step_writeByte_inByte htarget h, step_readByte_written ⟨h.1, rfl⟩ ?_, rfl, rfl⟩
  rw [hostReadByte_inWindow hkwin, if_pos hk, Memory.read_write]
  by_cases hik : i = k
  · rw [if_pos hik, if_pos hik]
  · rw [if_neg hik, if_neg hik, hu hik]

/-! ### The same command again -/

/-- Writing a block twice is writing it once: both memories are in canonical form and read alike. -/
theorem Memory.writeFrom_writeFrom_same {m : Memory} (h : Memory.wf m) (k : Nat) (vs : List Byte) :
    Memory.writeFrom (Memory.writeFrom m k vs) k vs = Memory.writeFrom m k vs := by
  have hwf := Memory.writeFrom_wf k vs h
  refine Memory.ext_of_wf (Memory.writeFrom_wf k vs hwf) hwf fun j => ?_
  simp only [Memory.read_writeFrom]
  split <;> rfl

theorem complete_complete_same {s : State} (hs : s.Inv) (results : List Byte) :
    complete results (complete results s) = complete results s := by
  simp only [complete, Memory.writeFrom_writeFrom_same hs.outBufWf]

/-- A command leaves its own operands as they were. -/
theorem exec_sameOperands {i : Instr} {s t : State} (h : exec i s = .next t) : SameOperands s t := by
  have hsame := exec_sameOutsideOutputs h
  exact ⟨hsame.config, hsame.inLen, fun k _ => by rw [hsame.inBuf]⟩

/-- Settles O32: the same operands give the same effect, and either effect, on the outputs it has left, is no change. -/
theorem repeatedCommandChangesNothing : Obligations.RepeatedCommandChangesNothing := by
  intro i s t hs h
  have heffect := (exec_sameOperands h).runCommand (commandCheck i) (commandTransform i)
  rw [← exec_eq_runCommand, ← exec_eq_runCommand, h] at heffect
  generalize exec i t = again at heffect
  cases heffect with
  | raised c => rfl
  | completed results => rw [complete_complete_same hs]

/-! ### UNPACK and the octets' bit string -/

theorem inputErrorCheck_eq_none {bs : List Byte} (h : ¬ (bs.length = 1 ∧ (bs.getD 0 0).getLsbD 7 = true)) :
    inputErrorCheck bs = none :=
  Option.eq_none_iff_forall_ne_some.2 fun c hc => h ((inputErrorCheck_eq_some_iff bs c).1 hc).2

/-- An octet above 127 is one with bit 7 set (R122). -/
theorem getLsbD_seven_iff (b : Byte) : b.getLsbD 7 = true ↔ 127 < b.toNat := by
  rw [← BitVec.msb_eq_getLsbD_last (x := b), BitVec.msb_eq_decide, decide_eq_true_eq]
  omega

/-- Octets other than one alone above 127 pass the check of UNPACK and DECODE (R122). -/
theorem inputErrorCheck_of_not_highOctet {s : State} {o : Nat → Byte} (hcheck : ¬ (s.inLen = 1 ∧ 127 < (o 0).toNat)) :
    inputErrorCheck ((List.range s.inLen.toNat).map o) = none := by
  refine inputErrorCheck_eq_none ?_
  rintro ⟨hlen, hbit⟩
  have hone : s.inLen.toNat = 1 := by simpa using hlen
  refine hcheck ⟨BitVec.eq_of_toNat_eq hone, (getLsbD_seven_iff _).1 ?_⟩
  simpa [hone] using hbit

/-- UNPACK of octets that pass its check leaves the N(m) CodePoints of their windows (R120, R123). -/
theorem exec_unpack_results {s : State} {octets : List Byte} (hlegal : s.config.legal = true)
    (hl : s.inLen.toNat ≤ s.config.inCap) (hb : inputBytes s = some octets) (hc : inputErrorCheck octets = none) :
    ∃ t, exec .unpack s = .next t ∧ t.outLen.toNat = 8 * s.inLen.toNat / 7 ∧
      ∀ k < t.outLen.toNat, Memory.read t.outBuf k = some (byteOf (unpackSeptet octets k)) := by
  obtain ⟨hcount, _⟩ := (inputBytes_eq_some_iff s octets).1 hb
  have hlen : (commandTransform .unpack octets).length = 8 * s.inLen.toNat / 7 := by
    simp [commandTransform, unpackedCount, hcount]
  have fits := length_commandTransform_le .unpack octets s.config (hcount.trans_le hl)
  have hout := toNat_complete_outLen_of_legal hlegal fits
  refine ⟨_, exec_complete hl hb hc, hout.trans hlen, fun k hk => ?_⟩
  rw [hout] at hk
  rw [read_complete, if_pos hk, List.getElem?_eq_getElem hk]
  simp [commandTransform, unpackOctets]

theorem getLsbD_byteOf (p : CodePoint) (x : Nat) : (byteOf p).getLsbD x = p.getLsbD x := by
  rw [byteOf, BitVec.getLsbD_setWidth]
  by_cases hx : x < 8
  · simp [hx]
  · simp [BitVec.getLsbD_of_ge p x (by omega), hx]

/-- Bit `x` of unpacked CodePoint `k` is bit 7k + x of the octets' bit string, where all its bits lie in the octets (R121). -/
theorem getLsbD_unpackSeptet_octetBit {m k x : Nat} (o : Nat → Byte) (hk : k < 8 * m / 7) (hx : x < 7) :
    (unpackSeptet ((List.range m).map o) k).getLsbD x = Spec.octetBit o (7 * k + x) := by
  have hin : (7 * k + x) / 8 < m := by omega
  rw [getLsbD_unpackSeptet_stream _ _ _ hx]
  simp [Spec.octetBit, List.getD_eq_getElem?_getD, hin]

/-- Settles O42: UNPACK leaves the N(m) CodePoints, and each of their bits is one of the octets' bit string. -/
theorem unpackReadsTheSeptetStream : Obligations.UnpackReadsTheSeptetStream := by
  intro s o hlegal h hcheck
  obtain ⟨t, hexec, hout, hread⟩ :=
    exec_unpack_results hlegal h.1 (inputBytes_of_holdsInput h) (inputErrorCheck_of_not_highOctet hcheck)
  refine ⟨t, hexec, hout, fun k hk => ⟨_, hread k hk, ?_, fun x hx => ?_⟩⟩
  · rw [getLsbD_byteOf, BitVec.getLsbD_of_ge _ _ (le_refl 7)]
  · rw [getLsbD_byteOf, getLsbD_unpackSeptet_octetBit o (hout ▸ hk) hx]

end Sys2Proof.Machine

/-! The encodings of the host port (spec/30_encoding.md). A CMD word is its two fields RSV and OP, so it decodes to a
command exactly where it is the word of that command (`decodeWord_eq_command_iff`). A hexadecimal field reads back the number
it was written from. The accesses of `load` and `dump` run as one block write and one block read. -/

namespace Sys2Proof.Machine

/-! ### The fields of a CMD word (R60, R61) -/

theorem cmdRsv_append_cmdOp (w : Word) : cmdRsv w ++ cmdOp w = w := by
  rw [cmdRsv, cmdOp, BitVec.extractLsb'_append_extractLsb'_eq_extractLsb' (by rfl), BitVec.extractLsb'_eq_self]

theorem cmdRsv_encode (i : Instr) : cmdRsv (encode i) = 0 :=
  BitVec.extractLsb'_append_eq_left

theorem cmdOp_encode (i : Instr) : cmdOp (encode i) = opcode i :=
  BitVec.extractLsb'_append_eq_right

/-- The decoder goes by the two fields: RSV is zero, and OP is the command's. -/
theorem decodeWord_eq_command_iff_fields (w : Word) (i : Instr) :
    decodeWord w = .command i ↔ cmdRsv w = 0 ∧ cmdOp w = opcode i := by
  unfold decodeWord
  by_cases hrsv : cmdRsv w = 0
  · rw [if_neg (not_not.2 hrsv), and_iff_right hrsv]
    generalize cmdOp w = op
    revert op
    cases i <;> decide
  · rw [if_pos hrsv]
    exact iff_of_false nofun fun ⟨hzero, _⟩ => hrsv hzero

/-- A word decodes to a command exactly where it is the word of that command, all 32 bits of it. -/
theorem decodeWord_eq_command_iff (w : Word) (i : Instr) : decodeWord w = .command i ↔ w = encode i := by
  rw [decodeWord_eq_command_iff_fields]
  constructor
  · rintro ⟨hrsv, hop⟩
    rw [← cmdRsv_append_cmdOp w, hrsv, hop, encode]
  · rintro rfl
    exact ⟨cmdRsv_encode i, cmdOp_encode i⟩

@[simp] theorem decodeWord_encode (i : Instr) : decodeWord (encode i) = .command i :=
  (decodeWord_eq_command_iff _ i).2 rfl

theorem Instr.wellFormed_eq_true (i : Instr) : i.wellFormed = true := by cases i <;> rfl

/-- The words of R61 are the words of the six commands. -/
theorem encode_mem_commandWords (i : Instr) : encode i ∈ Spec.commandWords := by cases i <;> decide

/-- Settles O5: both directions are one equivalence, from the word as its two fields. -/
theorem decodeAndEncodeAgree : Obligations.DecodeAndEncodeAgree :=
  ⟨fun i _ => decodeWord_encode i,
    fun w i h => ⟨(decodeWord_eq_command_iff w i).1 h, Instr.wellFormed_eq_true i⟩⟩

/-- Settles O4: the six words are those of the six commands, and only the word of a command decodes to one. -/
theorem opcodeMapWordsDecode : Obligations.OpcodeMapWordsDecode := by
  refine ⟨decodeWord_encode .mapf, decodeWord_encode .mapr, decodeWord_encode .pack, decodeWord_encode .unpack,
    decodeWord_encode .encode, decodeWord_encode .decode, fun w i h => ?_⟩
  rw [(decodeWord_eq_command_iff w i).1 h]
  exact encode_mem_commandWords i

theorem decodeWord_eq_illegal {w : Word} (h : w ∉ Spec.commandWords) : decodeWord w = .illegal := by
  cases hw : decodeWord w with
  | illegal => rfl
  | command i =>
    rw [(decodeWord_eq_command_iff w i).1 hw] at h
    exact absurd (encode_mem_commandWords i) h

/-- Settles O6: a word outside the map is the word of no command, and the CMD write of an illegal word raises. -/
theorem illegalWordRaisesIllegalCommand : Obligations.IllegalWordRaisesIllegalCommand := by
  intro w hw
  have hillegal := decodeWord_eq_illegal hw
  obtain ⟨_, raises, _⟩ := stepRunsTheCommandWrittenToCmd
  exact ⟨hillegal, fun s rest h => raises s w rest h hillegal⟩

/-! ### A table word placed as the next event -/

theorem tableWord_toNat (w : Word) : tableWord 32 w.toNat = some w := by
  rw [tableWord, Nat.mod_eq_of_lt w.isLt, if_pos w.isLt, BitVec.ofNat_toNat, BitVec.setWidth_eq]

theorem withFetchWord_toNat (s : State) (w : Word) : s.withFetchWord 32 w.toNat = withCommandWrite w s := by
  rw [State.withFetchWord, Nat.mod_eq_of_lt w.isLt, BitVec.ofNat_toNat, BitVec.setWidth_eq]

theorem step_withCommandWrite (w : Word) (s : State) :
    step (withCommandWrite w s) = startCommand w { s with resetAsserted := false } :=
  step_access (s := withCommandWrite w s) rfl rfl

/-- Settles O8: the table word is the command's own word, and its CMD write starts the command it decodes to. -/
theorem tableWordRunsAsTheNextStep : Obligations.TableWordRunsAsTheNextStep := by
  intro s i
  constructor
  · simp [decodeTableWord, tableWord_toNat]
  · rw [withFetchWord_toNat, step_withCommandWrite, startCommand_of_command (decodeWord_encode i)]

/-! ### The assembly and the pseudo-instructions (R66, R67) -/

theorem targetOffset_inByte (i : Nat) : targetOffset (.inByte i) = 0x1000 + BitVec.ofNat 16 i :=
  BitVec.ofNat_add 0x1000 i

theorem targetOffset_outByte (j : Nat) : targetOffset (.outByte j) = 0x2000 + BitVec.ofNat 16 j :=
  BitVec.ofNat_add 0x2000 j

/-- Settles O54: the offset of a register or a raw target is given, and that of an index is the rule's own sum. -/
theorem assemblyFormsAreTheirTuples : Obligations.AssemblyFormsAreTheirTuples := by
  refine ⟨fun _ => rfl, fun _ => rfl, fun _ => rfl, fun _ => ⟨rfl, rfl, rfl⟩, ⟨rfl, rfl, rfl, rfl, rfl⟩,
    fun i v _ => ?_, fun j _ => ?_, fun _ _ _ => ⟨rfl, rfl, rfl, rfl⟩⟩
  · rw [assemble, assemble, targetOffset_inByte]
    exact ⟨rfl, rfl⟩
  · rw [assemble, targetOffset_outByte]

theorem loadBytes_eq_map_zipIdx (k : Nat) (bytes : List Byte) :
    loadBytes k bytes = (bytes.zipIdx k).map fun b => HostAsm.sb (.inByte b.2) b.1 := by
  induction bytes generalizing k with
  | nil => rfl
  | cons b bs ih => simp [loadBytes, ih]

theorem dumpBytes_eq_map_range' (k n : Nat) :
    dumpBytes k n = (List.range' k n).map fun j => HostAsm.lb (.outByte j) := by
  induction n generalizing k with
  | zero => rfl
  | succ n ih => simp [dumpBytes, ih, List.range'_succ]

/-- Settles O55: the byte lists of `load` and `dump` are indexed from 0, the rest is as defined. -/
theorem pseudoInstructionsExpandInOrder : Obligations.PseudoInstructionsExpandInOrder := by
  intro outLen
  refine ⟨fun _ => rfl, fun bytes => ?_, fun _ => rfl, ?_, rfl⟩
  · rw [expandPseudo, expandLoad, loadBytes_eq_map_zipIdx]
  · rw [expandPseudo, dumpBytes_eq_map_range', List.range_eq_range']

/-! ### The text of a tuple (R68) -/

theorem hexValue_hexDigit {v : Nat} (hv : v < 16) : hexValue (hexDigit v) = some v := by
  revert v
  decide

@[simp] theorem length_hexText (d n : Nat) : (hexText d n).length = d := by
  induction d generalizing n with
  | zero => rfl
  | succ d ih => simp [hexText, ih]

theorem hexNumberFrom_append (acc : Nat) (cs cs' : List Char) :
    hexNumberFrom acc (cs ++ cs') = (hexNumberFrom acc cs).bind (hexNumberFrom · cs') := by
  induction cs generalizing acc with
  | nil => rfl
  | cons c cs ih =>
    cases hc : hexValue c with
    | none => simp [hexNumberFrom, hc]
    | some v => simp [hexNumberFrom, hc, ih]

/-- Reading the digits of a number that fits them gives the number back. -/
theorem hexNumberFrom_hexText {d n : Nat} (h : n < 16 ^ d) : hexNumberFrom 0 (hexText d n) = some n := by
  induction d generalizing n with
  | zero =>
    obtain rfl : n = 0 := by simpa using h
    rfl
  | succ d ih =>
    have hhigh : n / 16 < 16 ^ d := by rw [pow_succ] at h; omega
    have hlow := hexValue_hexDigit (Nat.mod_lt n (by decide : 0 < 16))
    simp [hexText, hexNumberFrom_append, ih hhigh, hexNumberFrom, hlow, Nat.div_add_mod]

theorem hexField_hexText {d n : Nat} (h : n < 16 ^ d) : hexField d (hexText d n) = some n := by
  rw [hexField, if_pos (length_hexText d n), hexNumberFrom_hexText h]

/-- The fields of a write tuple are cut where the offset's four digits end. -/
theorem writeFields_hexText {d off v : Nat} (hoff : off < 16 ^ 4) (hv : v < 16 ^ d) :
    writeFields d (hexText 4 off ++ ' ' :: hexText d v) = some (off, v) := by
  have htake : (hexText 4 off ++ ' ' :: hexText d v).take 4 = hexText 4 off := List.take_left' (length_hexText 4 off)
  have hdrop : (hexText 4 off ++ ' ' :: hexText d v).drop 4 = ' ' :: hexText d v :=
    List.drop_left' (length_hexText 4 off)
  simp [writeFields, htake, hdrop, hexField_hexText hoff, hexField_hexText hv]

/-- Settles O56: each form starts with its own two letters, and each of its fields reads back. -/
theorem tupleTextReadsBack : Obligations.TupleTextReadsBack := by
  intro a
  constructor
  · cases a with
    | readByte off => simp [tupleText, parseTuple, hexField_hexText (d := 4) off.isLt]
    | readWord off => simp [tupleText, parseTuple, hexField_hexText (d := 4) off.isLt]
    | writeByte off v => simp [tupleText, parseTuple, writeFields_hexText (d := 2) off.isLt v.isLt]
    | writeWord off w => simp [tupleText, parseTuple, writeFields_hexText (d := 8) off.isLt w.isLt]
  · cases a <;> simp [tupleText]

/-! ### The accesses of `load` and `dump` run (R183) -/

/-- A legal IN_CAP fits the IN window (R6). -/
theorem inCap_lt_inWindow {c : Config} (h : c.legal = true) : c.inCap < 0x1000 := by
  simp only [Config.legal, Bool.and_eq_true, decide_eq_true_eq] at h
  omega

/-- The OUT_CAP of a legal capacity fits the OUT window (R6). -/
theorem outCap_le_outWindow {c : Config} (h : c.legal = true) : outCap c ≤ 0x1000 := by
  simp only [Config.legal, Bool.and_eq_true, decide_eq_true_eq] at h
  simp only [outCap]
  omega

theorem issue_load {s : State} {bytes : List Byte} {outLen : Nat} (hp : s.pending = []) :
    issue ((expandPseudo outLen (.load bytes)).map assemble) s =
      { s with pending := ((loadBytes 0 bytes).map assemble).map .access ++
          [.access (.writeWord (regOffset .inLen) (BitVec.ofNat 32 bytes.length))] } := by
  simp [issue, hp, expandPseudo, expandLoad, assemble, targetOffset, asmWordValue]

theorem issue_dump {s : State} {outLen : Nat} (hp : s.pending = []) :
    issue ((expandPseudo outLen .dump).map assemble) s =
      { s with pending := .access (.readWord (regOffset .outLen)) ::
          ((dumpBytes 0 outLen).map assemble).map .access } := by
  simp [issue, hp, expandPseudo, assemble, targetOffset]

/-- The byte writes of `load`, next in the queue, write their block of IN_BUF, and leave what is queued after them. -/
theorem run_loadBytes {s : State} {k : Nat} {bytes : List Byte} (rest : List HostEvent) (n : Nat)
    (hlegal : s.config.legal = true) (fits : k + bytes.length ≤ s.config.inCap) (hr : s.resetAsserted = false) :
    run (n + bytes.length) { s with pending := ((loadBytes k bytes).map assemble).map .access ++ rest } =
      run n { s with pending := rest, inBuf := Memory.writeFrom s.inBuf k bytes } := by
  induction bytes generalizing s k with
  | nil => rfl
  | cons b bs ih =>
    rw [List.length_cons] at fits ⊢
    have hwin := inCap_lt_inWindow hlegal
    have htarget := byteTarget_inWindow (i := k) (by omega) s.config
    rw [if_pos (by omega)] at htarget
    refine Eq.trans (run_succ (step_writeByte_inByte htarget ⟨hr, rfl⟩)) ?_
    exact ih (s := { s with inBuf := Memory.write s.inBuf k b }) (k := k + 1) hlegal (by simp only; omega) hr

/-- The byte reads of `dump`, the last in the queue, return their block of OUT_BUF and change nothing else. -/
theorem run_dumpBytes {s : State} {k : Nat} {results : List Byte}
    (hlegal : s.config.legal = true) (fits : k + results.length ≤ outCap s.config) (hr : s.resetAsserted = false)
    (hread : ∀ j < results.length, Memory.read s.outBuf (k + j) = some (results.getD j 0)) :
    run results.length { s with pending := ((dumpBytes k results.length).map assemble).map .access } =
      .next { s with pending := [], reads := results.reverse.map .byte ++ s.reads } := by
  induction results generalizing s k with
  | nil => rfl
  | cons b bs ih =>
    rw [List.length_cons] at fits ⊢
    have hwin := outCap_le_outWindow hlegal
    have hbyte : hostReadByte s (BitVec.ofNat 16 (0x2000 + k)) = some b := by
      rw [hostReadByte_outWindow (by omega), if_pos (by omega)]
      exact hread 0 (by simp)
    have hrest : ∀ j < bs.length, Memory.read s.outBuf (k + 1 + j) = some (bs.getD j 0) := fun j hj => by
      simpa [Nat.add_assoc, Nat.add_comm 1] using hread (j + 1) (by simpa using hj)
    refine Eq.trans (run_succ (step_readByte_written ⟨hr, rfl⟩ hbyte)) ?_
    refine Eq.trans (ih (s := { s with reads := .byte b :: s.reads }) hlegal (by simp only; omega) hr hrest) ?_
    simp

/-- Settles O52: the byte writes are one block write of IN_BUF from index 0, and the last access writes IN_LEN. -/
theorem loadFillsInBufAndInLen : Obligations.LoadFillsInBufAndInLen := by
  intro s bytes hlegal fits hr hp
  have hcap := inCap_lt_inWindow hlegal
  refine ⟨{ s with inBuf := Memory.writeFrom s.inBuf 0 bytes,
                   inLen := (BitVec.ofNat 32 bytes.length).setWidth 16 }, ?_, fun i hi => ?_, fun i hi => ?_, ?_, rfl⟩
  · rw [issue_load hp, Nat.add_comm, run_loadBytes _ 1 hlegal (by omega) hr]
    refine Eq.trans (run_succ (step_writeInLen ⟨hr, rfl⟩)) ?_
    rw [run, hp]
  · simp [Memory.read_writeFrom, hi, List.getD_eq_getElem?_getD]
  · rw [Memory.read_writeFrom, if_neg (by omega)]
  · rw [BitVec.toNat_setWidth, BitVec.toNat_ofNat]
    omega

/-- The results below OUT_LEN are all written, so that they are a block that reads (R183). -/
theorem readFrom_outBuf_results {s : State} (hs : s.Inv) :
    ∃ results, Memory.readFrom s.outBuf 0 s.outLen.toNat = some results := by
  refine Option.ne_none_iff_exists'.1 fun hnone => ?_
  obtain ⟨j, hj, hunwritten⟩ := (Memory.readFrom_eq_none_iff _ _ _).1 hnone
  obtain ⟨v, hv⟩ := hs.outWritten j hj
  simp [hv] at hunwritten

/-- Settles O53: the first access returns OUT_LEN, and the byte reads return the written block of OUT_BUF below it. -/
theorem dumpReadsTheResults : Obligations.DumpReadsTheResults := by
  intro s hs hr hp
  obtain ⟨results, hresults⟩ := readFrom_outBuf_results hs
  obtain ⟨hlen, hread⟩ := (Memory.readFrom_eq_some_iff _ _ _ _).1 hresults
  simp only [Nat.zero_add] at hread
  refine ⟨_, results, ?_, hlen, hread, rfl⟩
  rw [issue_dump hp]
  refine Eq.trans (run_succ (step_readReg .outLen ⟨hr, rfl⟩)) ?_
  rw [← hlen]
  refine Eq.trans (run_dumpBytes (s := { s with reads := .word (s.outLen.setWidth 32) :: s.reads }) hs.configLegal
    ?_ hr ?_) ?_
  · simpa [hlen] using hs.outLenBound
  · simpa [hlen] using hread
  · rw [hp]

end Sys2Proof.Machine

/-! The MAP unit (spec/40_alphabet_map.md) and its two commands. A command that maps its operand bytes one by one completes with
each of them mapped (`exec_elementwise`). The maps F and Rv are said once per kind of code: on the safe subset both keep the number
of the code, but for the two special cases, and the range of Rv is the safe subset (`exists_toCharacter_eq_iff`). -/
namespace Sys2Proof.Machine

open Sys2Proof.Spec

/-! ### Commands that complete -/

/-- A command over the capacity raises LengthOverflow, whatever IN_BUF holds (R162). -/
theorem exec_lengthOverflow (i : Instr) {s : State} (h : s.config.inCap < s.inLen.toNat) :
    ∃ t, exec i s = .next t ∧ RaisedFrom s 2 t := by
  have hraise : exec i s = .next (raise .lengthOverflow s) := by
    rw [exec_eq_runCommand, runCommand, if_pos ((lengthOverflows_iff s).2 h)]
  exact ⟨_, hraise, raisedFrom_raise .lengthOverflow s⟩

/-- A completion whose results fit the 16 bits of OUT_LEN leaves exactly those results. -/
theorem completed_complete (s : State) {results : List Byte} {len : Nat} {result : Nat → Byte}
    (hlen : results.length = len) (fits : len < 2 ^ 16) (hresult : ∀ j < len, results[j]? = some (result j)) :
    Completed s (complete results s) len result where
  outLen := by rw [complete_outLen, BitVec.toNat_ofNat, hlen, Nat.mod_eq_of_lt fits]
  status := rfl
  results := fun j hj => by rw [read_complete, if_pos (hlen ▸ hj), hresult j hj]
  above := fun j hj => by rw [read_complete, if_neg (by omega)]
  others := sameOutsideOutputs_complete results s

/-- A command without a check of its own that maps `f` over its operand bytes completes with `f` of each. -/
theorem exec_elementwise {i : Instr} {f : Byte → Byte} (hcheck : commandCheck i = noInputCheck)
    (hmap : commandTransform i = List.map f) {s : State} {b : Nat → Byte} (h : s.HoldsInput b) :
    ∃ t, exec i s = .next t ∧ Completed s t s.inLen.toNat (fun k => f (b k)) := by
  have hexec := exec_complete (i := i) h.1 (inputBytes_of_holdsInput h) (by rw [hcheck, noInputCheck_eq])
  rw [hmap] at hexec
  exact ⟨_, hexec, completed_complete s (by simp) s.inLen.isLt fun j hj => by simp [hj]⟩

/-- Settles O19: MAPF maps F over its operand bytes and has no check of its own. -/
theorem mapfMapsCharactersToCodePoints : Obligations.MapfMapsCharactersToCodePoints :=
  ⟨fun _ => exec_lengthOverflow .mapf, fun _ _ => exec_elementwise (i := .mapf) rfl rfl⟩

/-- The CodePoint in a buffer byte as a number: bits 6:0 alone (R63). -/
theorem codePointOf_eq_ofNat (b : Byte) : codePointOf b = BitVec.ofNat 7 (b.toNat % 128) := by
  apply BitVec.eq_of_toNat_eq
  simp [codePointOf]

/-- Settles O20: MAPR maps Rv over bits 6:0 of its operand bytes and has no check of its own. -/
theorem maprMapsCodePointsToCharacters : Obligations.MaprMapsCodePointsToCharacters := by
  refine ⟨fun _ => exec_lengthOverflow .mapr, fun s b h => ?_⟩
  simp only [← codePointOf_eq_ofNat]
  exact exec_elementwise (i := .mapr) rfl rfl h

/-! ### The equations of the maps -/

/-- Below 0x80 the codes outside E are LF, CR and the two ranges between its parts (R80). -/
theorem excluded_eq_false_iff {c : Nat} (hc : c < 0x80) :
    excluded c = false ↔ c = 0x0A ∨ c = 0x0D ∨ (0x20 ≤ c ∧ c ≤ 0x5A) ∨ (0x60 ≤ c ∧ c ≤ 0x7A) := by
  simp only [excluded, Bool.or_eq_false_iff, decide_eq_false_iff_not]
  omega

theorem safeCharacter_iff (c : Byte) : safeCharacter c = true ↔ c.toNat < 0x80 ∧ excluded c.toNat = false := by
  simp [safeCharacter, Nat.lt_succ_iff]

theorem safeCharacter_eq_false_iff (c : Byte) :
    safeCharacter c = false ↔ excluded c.toNat = true ∨ 0x80 ≤ c.toNat := by
  rw [← Bool.not_eq_true, safeCharacter_iff, not_and_or, Bool.not_eq_false, not_lt, or_comm]

/-- F gives the substitute on E and from 0x80 on (R81). -/
theorem toCodePoint_of_not_safe {c : Byte} (h : safeCharacter c = false) : toCodePoint c = 0x20 := by
  have hdollar : c ≠ 0x24 := by rintro rfl; revert h; decide
  have hat : c ≠ 0x40 := by rintro rfl; revert h; decide
  rw [toCodePoint, if_neg hdollar, if_neg hat]
  rcases (safeCharacter_eq_false_iff c).1 h with hex | hhigh
  · rw [if_pos hex]
  · rw [if_pos hhigh, ite_self]

/-- F keeps the number of every safe character but the two special cases (R81). -/
theorem toCodePoint_of_safe {c : Byte} (h : safeCharacter c = true) (hdollar : c ≠ 0x24) (hat : c ≠ 0x40) :
    toCodePoint c = c.setWidth 7 := by
  obtain ⟨hlow, hex⟩ := (safeCharacter_iff c).1 h
  rw [toCodePoint, if_neg hdollar, if_neg hat, hex, if_neg Bool.false_ne_true, if_neg hlow.not_ge]

/-- Rv gives the substitute on E, where no special case comes before it (R82). -/
theorem toCharacter_of_excluded {p : CodePoint} (h : excluded p.toNat = true) (hzero : p ≠ 0x00) (htwo : p ≠ 0x02) :
    toCharacter p = 0x20 := by
  rw [toCharacter, if_neg hzero, if_neg htwo, if_pos h]

/-- Rv keeps the number of every CodePoint outside E, to which neither special case belongs (R82). -/
theorem toCharacter_of_not_excluded {p : CodePoint} (h : excluded p.toNat = false) :
    toCharacter p = p.setWidth 8 := by
  have hzero : p ≠ 0x00 := by rintro rfl; revert h; decide
  have htwo : p ≠ 0x02 := by rintro rfl; revert h; decide
  rw [toCharacter, if_neg hzero, if_neg htwo, h, if_neg Bool.false_ne_true]

/-- A CodePoint outside E is the number of a safe character. -/
theorem safeCharacter_setWidth {p : CodePoint} (h : excluded p.toNat = false) :
    safeCharacter (p.setWidth 8) = true := by
  rw [safeCharacter_iff, BitVec.toNat_setWidth_of_le (by omega)]
  exact ⟨p.isLt, h⟩

/-- Rv takes the CodePoint of a safe character's own number back to it. -/
theorem toCharacter_setWidth {c : Byte} (h : safeCharacter c = true) : toCharacter (c.setWidth 7) = c := by
  obtain ⟨hlow, hex⟩ := (safeCharacter_iff c).1 h
  have hnum : (c.setWidth 7).toNat = c.toNat := by rw [BitVec.toNat_setWidth, Nat.mod_eq_of_lt hlow]
  rw [toCharacter_of_not_excluded (by rwa [hnum])]
  apply BitVec.eq_of_toNat_eq
  rw [BitVec.toNat_setWidth_of_le (by omega), hnum]

/-- Rv gives safe characters only (R83). -/
theorem safeCharacter_toCharacter (p : CodePoint) : safeCharacter (toCharacter p) = true := by
  unfold toCharacter
  split_ifs with hzero htwo hex
  · decide
  · decide
  · decide
  · exact safeCharacter_setWidth (Bool.not_eq_true _ ▸ hex)

/-- The range of Rv is the safe subset (R83). -/
theorem exists_toCharacter_eq_iff (v : Byte) : (∃ p, toCharacter p = v) ↔ safeCharacter v = true :=
  ⟨fun ⟨p, hp⟩ => hp ▸ safeCharacter_toCharacter p, fun h => ⟨_, toCharacter_setWidth h⟩⟩

/-- The safe subset, by its ranges of codes (R83). -/
theorem safeCharacter_iff_ranges (v : Byte) : safeCharacter v = true ↔
    v = 0x0A ∨ v = 0x0D ∨ (0x20 ≤ v.toNat ∧ v.toNat ≤ 0x5A) ∨ (0x60 ≤ v.toNat ∧ v.toNat ≤ 0x7A) := by
  rw [safeCharacter_iff, and_congr_right excluded_eq_false_iff, ← BitVec.toNat_inj, ← BitVec.toNat_inj]
  simp only [BitVec.reduceToNat]
  omega

/-- Rv undoes F on the safe subset, the special cases included (R84). -/
theorem toCharacter_toCodePoint_of_safe {c : Byte} (h : safeCharacter c = true) : toCharacter (toCodePoint c) = c := by
  by_cases hdollar : c = 0x24
  · subst hdollar; decide
  by_cases hat : c = 0x40
  · subst hat; decide
  rw [toCodePoint_of_safe h hdollar hat, toCharacter_setWidth h]

/-- F undoes Rv outside E, but for the CodePoints 0x24 and 0x40 that F never gives (R85). -/
theorem toCodePoint_toCharacter_of_not_excluded {p : CodePoint} (h : excluded p.toNat = false) (hdollar : p ≠ 0x24)
    (hat : p ≠ 0x40) : toCodePoint (toCharacter p) = p := by
  have hback : (p.setWidth 8).setWidth 7 = p := by simp
  have hdollar' : p.setWidth 8 ≠ 0x24 := fun heq => hdollar (by rw [← hback, heq]; rfl)
  have hat' : p.setWidth 8 ≠ 0x40 := fun heq => hat (by rw [← hback, heq]; rfl)
  rw [toCharacter_of_not_excluded h, toCodePoint_of_safe (safeCharacter_setWidth h) hdollar' hat', hback]

/-- On E outside the two special cases F(Rv(p)) is the substitute, which is not in E itself (R85). -/
theorem toCodePoint_toCharacter_ne_of_excluded {p : CodePoint} (h : excluded p.toNat = true) (hzero : p ≠ 0x00)
    (htwo : p ≠ 0x02) : toCodePoint (toCharacter p) ≠ p := by
  rw [toCharacter_of_excluded h hzero htwo]
  rintro rfl
  revert h
  decide

/-! ### The statements on the maps -/

/-- Settles O33: the five ranges of E are compared with the printed list at each of the 256 codes. -/
theorem excludedSetHasFortyMembers : Obligations.ExcludedSetHasFortyMembers :=
  ⟨by decide, rfl, rfl, rfl⟩

/-- Settles O34: F is compared with the printed table row by row, at each of the 256 codes. -/
theorem forwardMapIsTheTable : Obligations.ForwardMapIsTheTable := by
  unfold Obligations.ForwardMapIsTheTable
  decide

/-- Settles O35: Rv is compared with the printed table row by row, at each of the 128 CodePoints. -/
theorem reverseMapIsTheTable : Obligations.ReverseMapIsTheTable := by
  unfold Obligations.ReverseMapIsTheTable
  decide

/-- Settles O36: codes in E are not safe, and the range of Rv is the safe subset. -/
theorem mapRanges : Obligations.MapRanges := by
  refine ⟨fun c => ⟨Nat.lt_succ_iff.1 (toCodePoint c).isLt, fun h => ?_⟩, fun p => ?_, fun v => ?_⟩
  · exact toCodePoint_of_not_safe ((safeCharacter_eq_false_iff c).2 (.inl h))
  · have h := (safeCharacter_iff_ranges _).1 (safeCharacter_toCharacter p)
    rw [← BitVec.toNat_inj, ← BitVec.toNat_inj] at h
    simp only [BitVec.reduceToNat] at h
    omega
  · rw [exists_toCharacter_eq_iff, safeCharacter_iff_ranges]

/-- Settles O37: Rv undoes F on the safe subset, F substitutes every other code, and Rv gives no code but a safe one. -/
theorem reverseOfForward : Obligations.ReverseOfForward := by
  refine ⟨fun c => toCharacter_toCodePoint_of_safe, fun c h => ?_, fun c h => ?_, rfl⟩
  · rw [toCodePoint_of_not_safe h]; decide
  · exact h ▸ safeCharacter_toCharacter _

/-- Settles O38: F(Rv(p)) is p outside E but for 0x24 and 0x40, p on the two special cases, and the substitute on the rest of E. -/
theorem forwardOfReverse : Obligations.ForwardOfReverse := by
  refine ⟨fun p => ⟨fun h => ?_, ?_⟩, rfl, rfl, rfl, rfl, fun c h => ?_, rfl, rfl, rfl, rfl,
    fun p => toCharacter_of_excluded⟩
  · refine ⟨?_, by rintro rfl; revert h; decide, by rintro rfl; revert h; decide⟩
    cases hex : excluded p.toNat with
    | false => exact .inl rfl
    | true =>
      refine .inr (by_contra fun hspecial => ?_)
      obtain ⟨hzero, htwo⟩ := not_or.1 hspecial
      exact toCodePoint_toCharacter_ne_of_excluded hex hzero htwo h
  · rintro ⟨hex | rfl | rfl, hdollar, hat⟩
    · exact toCodePoint_toCharacter_of_not_excluded hex hdollar hat
    · rfl
    · rfl
  · exact toCodePoint_of_not_safe ((safeCharacter_eq_false_iff c).2 h)

end Sys2Proof.Machine

/-! PACK (spec/41_septet_pack.md). A command that packs one CodePoint per operand byte completes with the octets of `packOctet`
(`exec_packing`), and such an octet is read in two ways: as a number it is the byte of R103's loop (`packOctet_eq_packByte`), and
as a bit string it is eight bits of the septets laid end to end (R46). -/
namespace Sys2Proof.Machine

open Sys2Proof.Spec

/-! ### The packed length -/

/-- Settles O39: the packed length of n = 8q + r, with r at most 7, is 7q + r. -/
theorem packedLengthLaw : Obligations.PackedLengthLaw := by
  refine ⟨length_packOctets, fun q r hr => ?_, fun n => ?_⟩ <;> rw [packedLength] <;> omega

/-- The septet an octet of the packed form begins in is not past the end (R103, R104). -/
theorem firstSeptet_lt {n j : Nat} (hj : j < packedLength n) : j + j / 7 < n := by
  rw [packedLength] at hj; omega

/-- An octet that a bit of the stream lies in is one of the packed form. -/
theorem packedOctet_lt {n j : Nat} (hj : 8 * j < 7 * n) : j < packedLength n := by
  rw [packedLength]; omega

/-! ### The packed octets as numbers and as a bit string -/

/-- The CodePoints of a sequence given by a function, and the zero fill of R102 past their end. -/
theorem getD_map_range (n i : Nat) (c : Nat → CodePoint) :
    ((List.range n).map c).getD i 0 = if i < n then c i else 0 := by
  by_cases hi : i < n <;> simp [List.getD_eq_getElem?_getD, hi]

/-- The 16-bit window of two CodePoints loses no bit that its low byte shows, so it can be computed on unbounded integers (R9). -/
theorem packWindow_eq_ofNat (a b : CodePoint) (r : Nat) :
    ((a.setWidth 16 >>> r) ||| (b.setWidth 16 <<< (7 - r))).setWidth 8 =
      BitVec.ofNat 8 ((a.toNat >>> r) ||| (b.toNat <<< (7 - r))) := by
  have ha : a.toNat < 65536 := a.isLt.trans (by decide)
  have hb : b.toNat < 256 := b.isLt.trans (by decide)
  apply BitVec.eq_of_toNat_eq
  simp [Nat.mod_eq_of_lt ha, Nat.mod_eq_of_lt hb]

/-- An octet of the packed form is the byte that R103's loop makes on unbounded integers. -/
theorem packOctet_eq_packByte {n j : Nat} (c : Nat → CodePoint) (hj : j < packedLength n) :
    packOctet ((List.range n).map c) j = packByte n (fun i => (c i).toNat) j := by
  simp only [packOctet, packByte, getD_map_range, if_pos (firstSeptet_lt hj), packWindow_eq_ofNat]
  split <;> rfl

/-- Bit `b` of septet `k` is bit 7k + b of the packed octets, laid end to end (R46, R102). -/
theorem getLsbD_packOctets_septet {s : List CodePoint} {k b j x : Nat} (hk : k < s.length) (hb : b < 7) (hx : x < 8)
    (hbit : 8 * j + x = 7 * k + b) : ((packOctets s).getD j 0).getLsbD x = (s.getD k 0).getLsbD b := by
  rw [getD_packOctets _ _ (packedOctet_lt (by omega)), getLsbD_packOctet_stream _ _ _ hx,
    show (8 * j + x) / 7 = k by omega, show (8 * j + x) % 7 = b by omega]

/-- Bit `x` of packed octet `j` is bit 8j + x of Stream(s), and 0 past its end (R102). -/
theorem getLsbD_packOctet_streamBit {n j x : Nat} (c : Nat → CodePoint) (hx : x < 8) :
    (packOctet ((List.range n).map c) j).getLsbD x = (decide (8 * j + x < 7 * n) && streamBit c (8 * j + x)) := by
  have hin : (8 * j + x) / 7 < n ↔ 8 * j + x < 7 * n := by omega
  rw [getLsbD_packOctet_stream _ _ _ hx, getD_map_range]
  by_cases h : 8 * j + x < 7 * n
  · simp [h, hin, streamBit]
  · simp [h, hin]

/-- Settles O43: bits 7k to 7k + 6 of the octets begin at bit 0 of an octet where k mod 8 = 0, and at bit 8 − k mod 8 of one
otherwise, so that bit k mod 8 of the septet is the first of the next octet. -/
theorem septetsLandInTheirOctets : Obligations.SeptetsLandInTheirOctets := by
  intro s k hk
  refine ⟨fun hj b hb => getLsbD_packOctets_septet hk hb (by omega) (by omega),
    fun b hb => getLsbD_packOctets_septet hk (by omega) (by omega) (by omega),
    fun hj b hge hb => ⟨?_, getLsbD_packOctets_septet hk hb (by omega) (by omega)⟩⟩
  have hfirst : 7 * k % 8 = 8 - k % 8 := by omega
  rw [length_packOctets]
  exact packedOctet_lt (by omega)

/-! ### The command -/

/-- A completion is known by the results it leaves. -/
theorem completed_congr {s t : State} {len : Nat} {f g : Nat → Byte} (h : Completed s t len f)
    (heq : ∀ j < len, f j = g j) : Completed s t len g :=
  { h with results := fun j hj => heq j hj ▸ h.results j hj }

/-- A command without a check of its own that packs `f` of each of its operand bytes completes with the packed octets. -/
theorem exec_packing {i : Instr} {f : Byte → CodePoint} (hcheck : commandCheck i = noInputCheck)
    (hpack : commandTransform i = fun bytes => packOctets (bytes.map f)) {s : State} {b : Nat → Byte}
    (h : s.HoldsInput b) :
    ∃ t, exec i s = .next t ∧
      Completed s t (packedLength s.inLen.toNat) (packOctet ((List.range s.inLen.toNat).map fun k => f (b k))) := by
  have hexec := exec_complete (i := i) h.1 (inputBytes_of_holdsInput h) (by rw [hcheck, noInputCheck_eq])
  simp only [hpack, List.map_map] at hexec
  have fits : packedLength s.inLen.toNat < 2 ^ 16 := (Nat.sub_le _ _).trans_lt s.inLen.isLt
  exact ⟨_, hexec, completed_complete s (by simp) fits fun j hj => by simp [packOctets, hj, Function.comp_def]⟩

/-- The octets a packing command completes with are the bytes of R103's loop over the CodePoints as numbers. -/
theorem exec_packing_byteFormula {i : Instr} {f : Byte → CodePoint} (hcheck : commandCheck i = noInputCheck)
    (hpack : commandTransform i = fun bytes => packOctets (bytes.map f)) {s : State} {b : Nat → Byte}
    (h : s.HoldsInput b) :
    ∃ t, exec i s = .next t ∧
      Completed s t (s.inLen.toNat - s.inLen.toNat / 8) (packByte s.inLen.toNat fun k => (f (b k)).toNat) := by
  obtain ⟨t, hexec, hdone⟩ := exec_packing hcheck hpack h
  exact ⟨t, hexec, completed_congr hdone fun j hj => packOctet_eq_packByte _ hj⟩

/-- Settles O21: PACK has no check of its own and packs bits 6:0 of its operand bytes. -/
theorem packWritesTheByteFormula : Obligations.PackWritesTheByteFormula := by
  refine ⟨fun _ => exec_lengthOverflow .pack, fun s b h => ?_⟩
  have hcode : ∀ k, (b k).toNat % 128 = (codePointOf (b k)).toNat := fun k => by simp [codePointOf]
  simp only [hcode]
  exact exec_packing_byteFormula (i := .pack) rfl rfl h

/-- Settles O41: the octets PACK leaves are its CodePoints' bits laid end to end, and 8 M(n) = 7n + n mod 8. -/
theorem packLeavesTheSeptetStream : Obligations.PackLeavesTheSeptetStream := by
  intro s b h
  obtain ⟨t, hexec, hdone⟩ := exec_packing (i := .pack) rfl rfl h
  refine ⟨t, hexec, ?_, fun j hj => ⟨_, hdone.results j (hdone.outLen ▸ hj), fun x hx => ?_⟩⟩
  · rw [hdone.outLen, packedLength]; omega
  · exact getLsbD_packOctet_streamBit (fun i => codePointOf (b i)) hx

end Sys2Proof.Machine

/-! UNPACK (spec/42_septet_unpack.md). A command that unpacks its operand octets and maps each CodePoint completes with the
windows of R123's loop (`exec_unpacking`). Unpacking and packing both read the bits of their operand laid end to end, so one after
the other they give a sequence back, but for the tail bits of the octets and for the CodePoint made of the fill bits. -/
namespace Sys2Proof.Machine

open Sys2Proof.Spec

/-! ### The count and the length laws (R120, R126) -/

/-- Settles O40: an octet sequence is unpacked by its length alone, and 8(7q + t) is 7(8q + t) + t with t below 7. -/
theorem unpackedCountLaw : Obligations.UnpackedCountLaw := by
  refine ⟨length_unpackOctets, fun q t ht => ?_⟩
  rw [unpackedCount]
  omega

theorem packedLength_unpackedCount (m : Nat) : packedLength (unpackedCount m) = m := by
  rw [packedLength, unpackedCount]
  omega

theorem unpackedCount_packedLength (n : Nat) :
    unpackedCount (packedLength n) = if n % 8 = 7 then n + 1 else n := by
  rw [unpackedCount, packedLength]
  split <;> omega

/-- The unpacked bits are the bits of the m octets but for the m mod 7 tail bits (R125). -/
theorem seven_mul_unpackedCount (m : Nat) : 7 * unpackedCount m = 8 * m - m % 7 := by
  rw [unpackedCount]
  omega

/-! ### The window of a CodePoint as a number (R123) -/

/-- The 16-bit window of two octets, shifted and cut to seven bits, can be computed on unbounded integers (R9). -/
theorem unpackWindow_eq_ofNat (hi lo : Byte) (sh : Nat) :
    ((hi ++ lo : BitVec 16) >>> sh).setWidth 7 = BitVec.ofNat 7 (((hi.toNat * 256 + lo.toNat) >>> sh) % 128) := by
  have hwindow : (hi ++ lo : BitVec 16).toNat = hi.toNat * 256 + lo.toNat := by
    rw [BitVec.toNat_append, ← Nat.shiftLeft_add_eq_or_of_lt lo.isLt, Nat.shiftLeft_eq]
  apply BitVec.eq_of_toNat_eq
  rw [BitVec.toNat_setWidth, BitVec.toNat_ushiftRight, hwindow, BitVec.toNat_ofNat, Nat.mod_mod]

/-- A CodePoint of the unpacked form is the septet that R123's loop makes on unbounded integers. -/
theorem unpackSeptet_eq_windowSeptet {m k : Nat} (o : Nat → Byte) (hk : k < unpackedCount m) :
    unpackSeptet ((List.range m).map o) k = BitVec.ofNat 7 (windowSeptet m (fun i => (o i).toNat) k) := by
  have hcurrent : 7 * k / 8 < m := by rw [unpackedCount] at hk; omega
  simp only [unpackSeptet, windowSeptet, unpackWindow_eq_ofNat]
  by_cases hnext : 7 * k / 8 + 1 < m <;> simp [List.getD_eq_getElem?_getD, hcurrent, hnext]

theorem windowSeptet_lt (m : Nat) (o : Nat → Nat) (k : Nat) : windowSeptet m o k < 128 :=
  Nat.mod_lt _ (by decide)

/-! ### The command (R123) -/

/-- UNPACK and DECODE raise InputError on a single octet with bit 7 set (R122). -/
theorem exec_inputError {i : Instr} (hcheck : commandCheck i = inputErrorCheck) {s : State} {o : Nat → Byte}
    (h : s.HoldsInput o) (hone : s.inLen = 1) (hhigh : (o 0).getLsbD 7 = true) :
    ∃ t, exec i s = .next t ∧ RaisedFrom s 1 t := by
  have hlen : s.inLen.toNat = 1 := by rw [hone]; rfl
  have hfires : inputErrorCheck ((List.range s.inLen.toNat).map o) = some .inputError :=
    (inputErrorCheck_eq_some_iff _ _).2 ⟨rfl, by simp [hlen], by simpa [hlen] using hhigh⟩
  have hraise : exec i s = .next (raise .inputError s) := by
    simp [exec_eq_runCommand, runCommand, lengthOverflows, Nat.not_lt.2 h.1, inputBytes_of_holdsInput h, hcheck, hfires]
  exact ⟨_, hraise, raisedFrom_raise .inputError s⟩

/-- A command that unpacks octets which pass its check, and maps `f` over the CodePoints, completes with `f` of each window. -/
theorem exec_unpacking {i : Instr} {f : CodePoint → Byte} (hcheck : commandCheck i = inputErrorCheck)
    (hunpack : commandTransform i = fun bytes => (unpackOctets bytes).map f) {s : State} {o : Nat → Byte}
    (hlegal : s.config.legal = true) (h : s.HoldsInput o) (hpass : ¬ (s.inLen = 1 ∧ (o 0).getLsbD 7 = true)) :
    ∃ t, exec i s = .next t ∧
      Completed s t (8 * s.inLen.toNat / 7)
        (fun k => f (BitVec.ofNat 7 (windowSeptet s.inLen.toNat (fun j => (o j).toNat) k))) := by
  rw [getLsbD_seven_iff] at hpass
  have hexec := exec_complete h.1 (inputBytes_of_holdsInput h) (hcheck ▸ inputErrorCheck_of_not_highOctet hpass)
  rw [hunpack] at hexec
  have fits : 8 * s.inLen.toNat / 7 < 2 ^ 16 :=
    (Nat.div_le_div_right (Nat.mul_le_mul_left 8 h.1)).trans_lt (outCap_lt_of_legal hlegal)
  refine ⟨_, hexec, completed_complete s (by simp [unpackedCount]) fits fun k hk => ?_⟩
  rw [← unpackSeptet_eq_windowSeptet o hk]
  simp [unpackOctets, unpackedCount, hk]

/-- Settles O22: UNPACK raises LengthOverflow or InputError, or completes with the byte of each window. -/
theorem unpackWritesTheWindowFormula : Obligations.UnpackWritesTheWindowFormula := by
  refine ⟨fun _ => exec_lengthOverflow .unpack, fun _ _ => exec_inputError (i := .unpack) rfl,
    fun s o hlegal h hpass => ?_⟩
  obtain ⟨t, hexec, hdone⟩ := exec_unpacking (i := .unpack) rfl rfl hlegal h hpass
  refine ⟨t, hexec, completed_congr hdone fun k _ => ?_⟩
  exact BitVec.setWidth_ofNat_of_le_of_lt (by decide) (windowSeptet_lt _ _ k)

/-! ### Unpacking and packing one after the other (R125, R126) -/

/-- Two lists of one length that agree at each of their indices are the same, whatever is read past their end. -/
theorem eq_of_getD_eq {α : Type} {l l' : List α} (d : α) (hlen : l.length = l'.length)
    (h : ∀ k < l.length, l.getD k d = l'.getD k d) : l = l' :=
  List.ext_getElem hlen fun k hk hk' => by
    rw [← List.getD_eq_getElem l d hk, ← List.getD_eq_getElem l' d hk', h k hk]

/-- An unpacked CodePoint lies in the bits of the octets below the tail bits, so octets that agree there unpack alike (R125). -/
theorem unpackOctets_congr {o o' : List Byte} (hlen : o'.length = o.length)
    (h : ∀ x < 8 * o.length - o.length % 7, octetBit (o'.getD · 0) x = octetBit (o.getD · 0) x) :
    unpackOctets o' = unpackOctets o := by
  unfold unpackOctets
  rw [hlen]
  refine List.map_congr_left fun k hk => BitVec.eq_of_getLsbD_eq fun b hb => ?_
  have hbelow := seven_mul_unpackedCount o.length
  rw [List.mem_range] at hk
  rw [getLsbD_unpackSeptet_stream _ _ _ hb, getLsbD_unpackSeptet_stream _ _ _ hb]
  exact h (7 * k + b) (by omega)

/-- Packing the unpacked octets keeps every bit of them below the tail bits, and makes the tail bits 0 (R125). -/
theorem getLsbD_packOctets_unpackOctets {o : List Byte} {j x : Nat} (hj : j < o.length) (hx : x < 8) :
    ((packOctets (unpackOctets o)).getD j 0).getLsbD x =
      (decide (8 * j + x < 8 * o.length - o.length % 7) && (o.getD j 0).getLsbD x) := by
  have hcount := seven_mul_unpackedCount o.length
  rw [getD_packOctets _ _ (by rwa [length_unpackOctets, packedLength_unpackedCount]), getLsbD_packOctet_stream _ _ _ hx]
  by_cases hbelow : 8 * j + x < 8 * o.length - o.length % 7
  · rw [getD_unpackOctets _ _ (by omega), getLsbD_unpackSeptet_stream _ _ _ (by omega), Nat.div_add_mod,
      show (8 * j + x) / 8 = j by omega, show (8 * j + x) % 8 = x by omega, decide_eq_true hbelow, Bool.true_and]
  · rw [List.getD_eq_default _ _ (by rw [length_unpackOctets]; omega), decide_eq_false hbelow, Bool.false_and,
      BitVec.ofNat_eq_ofNat, BitVec.getLsbD_zero]

/-- Packing undoes unpacking exactly where the bits that packing makes 0 are 0 already (R125). -/
theorem packOctets_unpackOctets_eq_iff (o : List Byte) :
    packOctets (unpackOctets o) = o ↔
      ∀ x, 8 - o.length % 7 ≤ x → x < 8 → (o.getD (o.length - 1) 0).getLsbD x = false := by
  constructor
  · intro heq x htail hx
    have hbit := getLsbD_packOctets_unpackOctets (o := o) (j := o.length - 1) (by omega) hx
    rwa [heq, decide_eq_false (by omega), Bool.false_and] at hbit
  · intro hzero
    refine eq_of_getD_eq 0 (by simp [packedLength_unpackedCount]) fun j hj => BitVec.eq_of_getLsbD_eq fun x hx => ?_
    rw [length_packOctets, length_unpackOctets, packedLength_unpackedCount] at hj
    rw [getLsbD_packOctets_unpackOctets hj hx]
    by_cases hbelow : 8 * j + x < 8 * o.length - o.length % 7
    · rw [decide_eq_true hbelow, Bool.true_and]
    · rw [show j = o.length - 1 by omega, hzero x (by omega) hx, Bool.and_false]

/-- Settles O44: unpacking reads no tail bit, and packing writes every tail bit as 0. -/
theorem tailBitsAreIgnored : Obligations.TailBitsAreIgnored :=
  ⟨fun _ _ => unpackOctets_congr, packOctets_unpackOctets_eq_iff⟩

/-- Unpacking a packed sequence reads its septets back, and the fill bits as a zero septet past its end (R126). -/
theorem unpackSeptet_packOctets {s : List CodePoint} {k : Nat} (hk : k < unpackedCount (packedLength s.length)) :
    unpackSeptet (packOctets s) k = s.getD k 0 := by
  refine BitVec.eq_of_getLsbD_eq fun b hb => ?_
  have hoctet : (7 * k + b) / 8 < packedLength s.length := by rw [unpackedCount] at hk; omega
  rw [getLsbD_unpackSeptet_stream _ _ _ hb, getD_packOctets _ _ hoctet,
    getLsbD_packOctet_stream _ _ _ (Nat.mod_lt _ (by decide)), Nat.div_add_mod, show (7 * k + b) / 7 = k by omega,
    show (7 * k + b) % 7 = b by omega]

/-- A sequence and its zero continuation are read alike at every index. -/
theorem getD_append_ite_zero (s : List CodePoint) (p : Prop) [Decidable p] (k : Nat) :
    (s ++ if p then [0x00] else []).getD k 0 = s.getD k 0 := by
  by_cases hk : k < s.length
  · rw [List.getD_append _ _ _ _ hk]
  · have hpast : s.length ≤ k := Nat.le_of_not_lt hk
    rw [List.getD_append_right _ _ _ _ hpast, List.getD_eq_default _ _ hpast]
    split
    · cases k - s.length <;> rfl
    · rfl

theorem unpackOctets_packOctets (s : List CodePoint) :
    unpackOctets (packOctets s) = s ++ if s.length % 8 = 7 then [0x00] else [] := by
  refine eq_of_getD_eq 0 ?_ fun k hk => ?_
  · rw [length_unpackOctets, length_packOctets, unpackedCount_packedLength, List.length_append]
    split <;> rfl
  · rw [length_unpackOctets] at hk
    rw [getD_unpackOctets _ _ hk, unpackSeptet_packOctets (length_packOctets s ▸ hk), getD_append_ite_zero]

/-- Settles O45: every bit unpacked is the bit packed, and the lengths differ by the one CodePoint of the fill bits. -/
theorem unpackOfPackGivesTheSequenceBack : Obligations.UnpackOfPackGivesTheSequenceBack :=
  ⟨unpackOctets_packOctets, packedLength_unpackedCount, unpackedCount_packedLength⟩

end Sys2Proof.Machine

/-! The transcoder (spec/43_transcoder.md). ENCODE packs F of each operand byte and DECODE maps Rv over the windows of its
operand octets, so the lemmas of PACK and UNPACK hold of them as well. A command that the host runs on the results of
another holds those results as its operand bytes (`holdsInput_of_copiedBack`), and two commands in sequence are
compared result by result. -/
namespace Sys2Proof.Machine

open Sys2Proof.Spec

/-! ### The two commands (R140, R141) -/

/-- Settles O23: ENCODE has no check of its own and packs F of each of its operand bytes. -/
theorem encodeMapsThenPacks : Obligations.EncodeMapsThenPacks :=
  ⟨fun _ => exec_lengthOverflow .encode, fun _ _ => exec_packing_byteFormula (i := .encode) rfl rfl⟩

/-- Settles O24: DECODE raises LengthOverflow or InputError, or completes with Rv of each window. -/
theorem decodeUnpacksThenMaps : Obligations.DecodeUnpacksThenMaps :=
  ⟨fun _ => exec_lengthOverflow .decode, fun _ _ => exec_inputError (i := .decode) rfl,
    fun _ _ => exec_unpacking (i := .decode) rfl rfl⟩

/-! ### One command on the results of another -/

/-- A ready command within the capacity has all of its operand bytes. -/
theorem exists_holdsInput {s : State} (hready : s.commandReady) (hl : s.inLen.toNat ≤ s.config.inCap) :
    ∃ b, s.HoldsInput b := by
  rcases hready with hover | hwritten
  · exact absurd hl hover.not_ge
  · refine ⟨fun i => (Memory.read s.inBuf i).getD 0, hl, fun i hi => ?_⟩
    obtain ⟨v, hv⟩ := hwritten i hi
    simp [hv]

/-- Results the host has copied back are the operand bytes of the next command, where they fit IN_BUF. -/
theorem holdsInput_of_copiedBack {s t t' : State} {len : Nat} {result : Nat → Byte}
    (hdone : Completed s t len result) (hcopy : CopiedBack t t' len) (fits : len ≤ s.config.inCap) :
    t'.inLen.toNat = len ∧ t'.HoldsInput result := by
  obtain ⟨hconfig, hlen, hread⟩ := hcopy
  refine ⟨hlen, ?_, fun i hi => ?_⟩
  · rwa [hconfig, hdone.others.config, hlen]
  · rw [hlen] at hi
    rw [hread i hi, hdone.results i hi]

/-- Two completions with the same results leave the same OUT_LEN, STATUS and OUT_BUF below OUT_LEN. -/
theorem sameOutputs_of_completed {s s' v u : State} {len : Nat} {result : Nat → Byte} (hv : Completed s v len result)
    (hu : Completed s' u len result) :
    u.outLen = v.outLen ∧ u.status = v.status ∧
      ∀ j < v.outLen.toNat, Memory.read u.outBuf j = Memory.read v.outBuf j := by
  refine ⟨BitVec.eq_of_toNat_eq (hu.outLen.trans hv.outLen.symm), hu.status.trans hv.status.symm, fun j hj => ?_⟩
  rw [hv.outLen] at hj
  rw [hu.results j hj, hv.results j hj]

/-! ### ENCODE and DECODE as two commands in sequence (R142) -/

/-- The CodePoint in the byte of a CodePoint is that CodePoint (R63). -/
@[simp] theorem codePointOf_byteOf (p : CodePoint) : codePointOf (byteOf p) = p :=
  BitVec.setWidth_setWidth_of_le p (by decide)

/-- Settles O46: MAPF leaves the bytes of the CodePoints that ENCODE packs, and PACK reads those CodePoints from them. -/
theorem encodeEqualsMapfThenPack : Obligations.EncodeEqualsMapfThenPack := by
  intro s _ hready hl
  obtain ⟨c, h⟩ := exists_holdsInput hready hl
  obtain ⟨v, hencode, hv⟩ := exec_packing (i := .encode) rfl rfl h
  obtain ⟨t, hmapf, ht⟩ := exec_elementwise (i := .mapf) rfl rfl h
  refine ⟨v, t, hencode, hmapf, fun t' hcopy => ?_⟩
  obtain ⟨hlen, hinput⟩ := holdsInput_of_copiedBack ht hcopy hl
  obtain ⟨u, hpack, hu⟩ := exec_packing (i := .pack) rfl rfl hinput
  simp only [hlen, codePointOf_byteOf] at hu
  exact ⟨u, hpack, sameOutputs_of_completed hv hu⟩

/-- Settles O47: both commands make the same check; UNPACK leaves the bytes of the CodePoints that DECODE maps, and MAPR reads
those CodePoints from them. (That they fit IN_BUF is the model's inference, log entry 9.) -/
theorem decodeEqualsUnpackThenMapr : Obligations.DecodeEqualsUnpackThenMapr := by
  intro s hlegal hready hl
  obtain ⟨o, h⟩ := exists_holdsInput hready hl
  by_cases hpass : s.inLen = 1 ∧ (o 0).getLsbD 7 = true
  · obtain ⟨hone, hhigh⟩ := hpass
    obtain ⟨v, hdecode, hv⟩ := exec_inputError (i := .decode) rfl h hone hhigh
    obtain ⟨t, hunpack, ht⟩ := exec_inputError (i := .unpack) rfl h hone hhigh
    refine ⟨v, t, hdecode, hunpack, hv.status.trans ht.status.symm, hv.outLen.trans ht.outLen.symm, fun hzero => ?_⟩
    rw [ht.status] at hzero
    exact absurd hzero (by decide)
  · obtain ⟨v, hdecode, hv⟩ := exec_unpacking (i := .decode) rfl rfl hlegal h hpass
    obtain ⟨t, hunpack, ht⟩ := exec_unpacking (i := .unpack) rfl rfl hlegal h hpass
    refine ⟨v, t, hdecode, hunpack, hv.status.trans ht.status.symm,
      BitVec.eq_of_toNat_eq (hv.outLen.trans ht.outLen.symm), fun _ fits t' hcopy => ?_⟩
    rw [ht.outLen] at fits hcopy
    obtain ⟨hlen, hinput⟩ := holdsInput_of_copiedBack ht hcopy fits
    obtain ⟨u, hmapr, hu⟩ := exec_elementwise (i := .mapr) rfl rfl hinput
    simp only [hlen, codePointOf_byteOf] at hu
    exact ⟨u, hmapr, sameOutputs_of_completed hv hu⟩

/-! ### Decoding an encoding (R143) -/

/-- The packed form of one CodePoint is an octet with bit 7 zero, so it passes the check of UNPACK and DECODE (R122). -/
theorem getLsbD_seven_packOctet_singleton {s : List CodePoint} (hone : packedLength s.length = 1) :
    (packOctet s 0).getLsbD 7 = false := by
  have hlen : s.length ≤ 1 := by rw [packedLength] at hone; omega
  rw [getLsbD_packOctet_stream _ _ _ (by decide), List.getD_eq_default _ _ hlen, BitVec.ofNat_eq_ofNat,
    BitVec.getLsbD_zero]

/-- DECODE of the packed form of CodePoints gives Rv of each, and Rv of the zero CodePoint of the fill bits after them where
that is a whole one (R126). -/
theorem exec_decode_packOctets {s : State} {codes : List CodePoint} (hlegal : s.config.legal = true)
    (hlen : s.inLen.toNat = packedLength codes.length) (h : s.HoldsInput (packOctet codes)) :
    ∃ t, exec .decode s = .next t ∧
      Completed s t (if codes.length % 8 = 7 then codes.length + 1 else codes.length)
        (fun k => toCharacter (codes.getD k 0)) := by
  have hpass : ¬ (s.inLen = 1 ∧ (packOctet codes 0).getLsbD 7 = true) := by
    rintro ⟨hone, hhigh⟩
    rw [getLsbD_seven_packOctet_singleton (by rw [← hlen, hone]; rfl)] at hhigh
    contradiction
  obtain ⟨t, hexec, hdone⟩ := exec_unpacking (i := .decode) rfl rfl hlegal h hpass
  rw [hlen] at hdone
  rw [← unpackedCount_packedLength]
  refine ⟨t, hexec, completed_congr hdone fun k hk => ?_⟩
  rw [← unpackSeptet_eq_windowSeptet _ hk]
  exact congrArg toCharacter (unpackSeptet_packOctets hk)

/-- Rv(F(c)) is c on the safe subset and a space on every other code (R84). -/
theorem toCharacter_toCodePoint (c : Byte) :
    toCharacter (toCodePoint c) = if safeCharacter c = true then c else 0x20 := by
  obtain ⟨hsafe, hunsafe, _⟩ := reverseOfForward
  split
  · next h => exact hsafe c h
  · next h => exact hunsafe c (Bool.eq_false_of_not_eq_true h)

/-- Settles O48: ENCODE leaves the packed form of the CodePoints F(c[i]), DECODE gives Rv of each, and '@' is Rv of the zero
CodePoint. -/
theorem decodeOfEncodeGivesTheTextBack : Obligations.DecodeOfEncodeGivesTheTextBack := by
  intro s c hlegal h _
  obtain ⟨t, hencode, ht⟩ := exec_packing (i := .encode) rfl rfl h
  refine ⟨t, hencode, ht.outLen, fun t' hcopy => ?_⟩
  rw [ht.outLen] at hcopy
  obtain ⟨hlen, hinput⟩ := holdsInput_of_copiedBack ht hcopy ((Nat.sub_le _ _).trans h.1)
  obtain ⟨hconfig, _⟩ := hcopy
  have hlegal' : t'.config.legal = true := by rwa [hconfig, ht.others.config]
  obtain ⟨u, hdecode, hu⟩ := exec_decode_packOctets hlegal' (by simpa using hlen) hinput
  simp only [List.length_map, List.length_range] at hu
  refine ⟨u, hdecode, hu.status, hu.outLen, fun i hi => ?_, fun hseven => ?_⟩
  · rw [hu.results i (by split <;> omega), getD_map_range, if_pos hi, toCharacter_toCodePoint]
  · rw [hu.results _ (by rw [if_pos hseven]; omega), getD_map_range, if_neg (lt_irrefl _)]
    rfl

/-! ### Encoding a decoding (R144) -/

/-- A bit of a window's CodePoint is the bit of the octets it was read from (R121, R123). -/
theorem getLsbD_windowSeptet {m j x : Nat} (o : Nat → Byte) (hx : x < 8) (hbelow : 8 * j + x < 7 * (8 * m / 7)) :
    (BitVec.ofNat 7 (windowSeptet m (fun i => (o i).toNat) ((8 * j + x) / 7))).getLsbD ((8 * j + x) % 7) =
      (o j).getLsbD x := by
  have hk : (8 * j + x) / 7 < 8 * m / 7 := by omega
  rw [← unpackSeptet_eq_windowSeptet o hk, getLsbD_unpackSeptet_octetBit o hk (Nat.mod_lt _ (by decide)), Nat.div_add_mod,
    octetBit, show (8 * j + x) / 8 = j by omega, show (8 * j + x) % 8 = x by omega]

/-- Settles O49: ENCODE packs F(Rv(p)) for the CodePoint p of each window, which is p itself where it survives the maps (R85),
so that a bit below the tail bits is then the bit p was read from. (That the characters fit IN_BUF is the model's inference, log
entry 9.) -/
theorem encodeOfDecodeGivesTheOctetsBack : Obligations.EncodeOfDecodeGivesTheOctetsBack := by
  intro s o hlegal h hcheck fits
  rw [← getLsbD_seven_iff] at hcheck
  obtain ⟨t, hdecode, ht⟩ := exec_unpacking (i := .decode) rfl rfl hlegal h hcheck
  refine ⟨t, hdecode, ht.outLen, fun t' hcopy => ?_⟩
  rw [ht.outLen] at hcopy
  obtain ⟨hlen, hinput⟩ := holdsInput_of_copiedBack ht hcopy fits
  obtain ⟨u, hencode, hu⟩ := exec_packing (i := .encode) rfl rfl hinput
  rw [hlen, ← unpackedCount, packedLength_unpackedCount] at hu
  refine ⟨u, hencode, hu.status, BitVec.eq_of_toNat_eq hu.outLen, fun j hj => ⟨_, hu.results j hj, fun x hx => ?_⟩⟩
  intro y p
  rw [getLsbD_packOctet_streamBit _ hx]
  by_cases htail : 7 * (8 * s.inLen.toNat / 7) ≤ y
  · rw [if_pos htail, unpackedCount, decide_eq_false htail.not_gt, Bool.false_and]
  · rw [if_neg htail, unpackedCount, decide_eq_true (not_le.1 htail), Bool.true_and, streamBit]
    split
    · next hsurvives =>
      obtain ⟨hback, _⟩ := forwardOfReverse
      rw [(hback p).2 hsurvives]
      exact getLsbD_windowSeptet o hx (not_le.1 htail)
    · rfl

end Sys2Proof.Machine

/-! The conditions and the one fault (spec/60_exceptions.md). What a command raises is read off the three ways it can answer a
next state (`exec_next_cases`). A step answers a next state unless its access reads an unwritten byte: this is said once per
kind of access, and the step has one case per kind of event. -/
namespace Sys2Proof.Machine

open Sys2Proof.Spec

/-! ### STATUS and OUT_LEN before a command (R166, R167) -/

/-- STATUS and OUT_LEN are no operands of a command (R36). -/
theorem sameOperands_withOutputs (s : State) (status : BitVec 3) (outLen : BitVec 16) :
    SameOperands s { s with status := status, outLen := outLen } :=
  ⟨rfl, rfl, fun _ _ => rfl⟩

/-- Settles O30: a CMD write has the same effect on the same operands, and each of its effects replaces both registers. -/
theorem commandsIgnoreOldStatusAndOutLen : Obligations.CommandsIgnoreOldStatusAndOutLen := by
  intro w s status outLen
  have heffect := (sameOperands_withOutputs s status outLen).startCommand w
  generalize startCommand w s = o, startCommand w { s with status := status, outLen := outLen } = o' at heffect ⊢
  cases heffect with
  | fault => rfl
  | raised c => rfl
  | completed results => rfl

/-! ### What raises each condition (R161, R162) -/

/-- Settles O28: over the capacity every command raises LengthOverflow, and within it a command raises InputError or leaves
STATUS = 0. -/
theorem lengthOverflowExactlyAboveCapacity : Obligations.LengthOverflowExactlyAboveCapacity := by
  refine fun i s => ⟨exec_lengthOverflow i, fun t h hstatus => ?_⟩
  rcases exec_next_cases h with ⟨hover, _⟩ | ⟨_, _, _, _, _, _, rfl⟩ | ⟨_, _, _, _, rfl⟩
  · exact hover
  · exact absurd hstatus (by simp)
  · exact absurd hstatus (by simp)

/-- IN_BUF holds a single operand octet, and bit 7 of it is set (R122). -/
def State.HoldsOneHighOctet (s : State) : Prop :=
  s.inLen = 1 ∧ ∃ b, Memory.read s.inBuf 0 = some b ∧ b.getLsbD 7 = true

theorem holdsOneHighOctet_of_inputBytes {s : State} {bs : List Byte} (hb : inputBytes s = some bs)
    (hone : bs.length = 1) (hhigh : (bs.getD 0 0).getLsbD 7 = true) : s.HoldsOneHighOctet := by
  obtain ⟨hlen, hread⟩ := (inputBytes_eq_some_iff s bs).1 hb
  exact ⟨BitVec.eq_of_toNat_eq (hlen.symm.trans hone), _, hread 0 (by omega), hhigh⟩

/-- UNPACK and DECODE raise InputError on a single high octet that is within the capacity. -/
theorem exec_inputError_of_holdsOneHighOctet {i : Instr} (hi : i = .unpack ∨ i = .decode) {s : State}
    (hl : s.inLen.toNat ≤ s.config.inCap) (h : s.HoldsOneHighOctet) :
    ∃ t, exec i s = .next t ∧ RaisedFrom s 1 t := by
  obtain ⟨hone, b, hb, hhigh⟩ := h
  have hcheck : commandCheck i = inputErrorCheck := by rcases hi with rfl | rfl <;> rfl
  have hinput : s.HoldsInput (fun _ => b) := by
    refine ⟨hl, fun k hk => ?_⟩
    have hzero : k = 0 := by simpa [hone] using hk
    rw [hzero, hb]
  exact exec_inputError hcheck hinput hone hhigh

/-- Settles O27: of the three ways a command answers a next state, one sets STATUS = INPUT_ERR. -/
theorem inputErrorExactlyOnOneHighOctet : Obligations.InputErrorExactlyOnOneHighOctet := by
  intro i s hcap
  simp only [← getLsbD_seven_iff]
  constructor
  · rintro ⟨t, h, hstatus⟩
    rcases exec_next_cases h with ⟨_, rfl⟩ | ⟨bs, _, hb, hi, hone, hhigh, _⟩ | ⟨_, _, _, _, rfl⟩
    · exact absurd hstatus (by simp)
    · exact ⟨hi, holdsOneHighOctet_of_inputBytes hb hone hhigh⟩
    · exact absurd hstatus (by simp)
  · rintro ⟨hi, hone, hoctet⟩
    have hl : s.inLen.toNat ≤ s.config.inCap := by simpa [hone] using hcap
    obtain ⟨t, h, hraised⟩ := exec_inputError_of_holdsOneHighOctet hi hl ⟨hone, hoctet⟩
    exact ⟨t, h, hraised.status⟩

/-! ### The order of the checks (R164) -/

theorem exists_encode_of_mem_commandWords {w : Word} (h : w ∈ commandWords) : ∃ i, w = encode i := by
  have hwords : commandWords = [.mapf, .mapr, .pack, .unpack, .encode, .decode].map encode := rfl
  rw [hwords] at h
  obtain ⟨i, _, hi⟩ := List.mem_map.1 h
  exact ⟨i, hi.symm⟩

/-- The words of UNPACK and DECODE are the words 4 and 6 (R61). -/
theorem encode_eq_octetCommand_iff (i : Instr) :
    (encode i = 0x00000004 ∨ encode i = 0x00000006) ↔ (i = .unpack ∨ i = .decode) := by
  cases i <;> decide

/-- The CMD write of a command's word performs the command. -/
theorem step_writeCommand {s : State} {i : Instr} {rest : List HostEvent}
    (h : s.Offers (.writeWord 0x0000 (encode i)) rest) : step s = exec i { s with pending := rest } := by
  obtain ⟨performs, _⟩ := stepRunsTheCommandWrittenToCmd
  exact performs s _ i rest h (decodeWord_encode i)

/-- A command that passes every check, with its operand bytes written, completes with STATUS = 0. -/
theorem exec_completes {i : Instr} {s : State} (hl : s.inLen.toNat ≤ s.config.inCap)
    (hpass : ¬ ((i = .unpack ∨ i = .decode) ∧ s.HoldsOneHighOctet))
    (hwritten : ∀ k < s.inLen.toNat, ∃ v, Memory.read s.inBuf k = some v) :
    ∃ t, exec i s = .next t ∧ t.status = 0 := by
  obtain ⟨runs, _⟩ := commandRunsExactlyWhenReady i s
  obtain ⟨t, h⟩ := runs.1 (.inr hwritten)
  refine ⟨t, h, ?_⟩
  rcases exec_next_cases h with ⟨hover, _⟩ | ⟨bs, _, hb, hi, hone, hhigh, _⟩ | ⟨_, _, _, _, rfl⟩
  · exact absurd hl hover.not_ge
  · exact absurd ⟨hi, holdsOneHighOctet_of_inputBytes hb hone hhigh⟩ hpass
  · rfl

/-- Settles O29: a CMD write of an illegal word raises, and one of a legal word is a command, which makes the remaining checks
in order. -/
theorem conditionsAreCheckedInOrder : Obligations.ConditionsAreCheckedInOrder := by
  intro s w rest h
  refine ⟨fun hw => ?_, fun hw hover => ?_, fun hw hl hone b hb hhigh => ?_, fun hw hl hpass hwritten => ?_⟩
  · obtain ⟨_, raises⟩ := illegalWordRaisesIllegalCommand w hw
    exact raises s rest h
  · obtain ⟨i, rfl⟩ := exists_encode_of_mem_commandWords hw
    rw [step_writeCommand h]
    exact exec_lengthOverflow i hover
  · have hmem : w ∈ commandWords := by rcases hw with rfl | rfl <;> decide
    obtain ⟨i, rfl⟩ := exists_encode_of_mem_commandWords hmem
    rw [step_writeCommand h]
    exact exec_inputError_of_holdsOneHighOctet ((encode_eq_octetCommand_iff i).1 hw) hl ⟨hone, b, hb, hhigh⟩
  · obtain ⟨i, rfl⟩ := exists_encode_of_mem_commandWords hw
    rw [encode_eq_octetCommand_iff] at hpass
    obtain ⟨t, hexec, hstatus⟩ := exec_completes (s := { s with pending := rest }) hl hpass hwritten
    exact ⟨i, t, rfl, (step_writeCommand h).trans hexec, hexec, hstatus⟩

/-! ### The fault of an unwritten read (R171) -/

theorem not_commandReady_iff (s : State) :
    ¬ s.commandReady ↔ s.inLen.toNat ≤ s.config.inCap ∧ ∃ k < s.inLen.toNat, Memory.read s.inBuf k = none := by
  simp [State.commandReady, Option.eq_none_iff_forall_ne_some]

theorem step_of_readsUnwritten {s : State} (h : s.ReadsUnwritten) : step s = .fault .uninitRead := by
  rcases h with ⟨i, rest, h, hwin, hcap, hnone⟩ | ⟨j, rest, h, hwin, hcap, hnone⟩ | ⟨w, i, rest, h, hw, hunwritten⟩
  · exact step_readByte_unwritten h (by rw [hostReadByte_inWindow hwin, if_pos hcap, hnone])
  · exact step_readByte_unwritten h (by rw [hostReadByte_outWindow hwin, if_pos hcap, hnone])
  · obtain ⟨performs, _⟩ := stepRunsTheCommandWrittenToCmd
    obtain ⟨_, faults⟩ := commandRunsExactlyWhenReady i { s with pending := rest }
    rw [performs s w i rest h hw]
    exact faults.1 ((not_commandReady_iff _).2 hunwritten)

section Accesses

variable {s : State} {off : Offset} {w : Word} {rest : List HostEvent}

/-- A byte-wide read that finds no value is a read of an unwritten buffer byte below the capacity (R37). -/
theorem readsUnwritten_of_hostReadByte (h : s.Offers (.readByte off) rest) (hv : hostReadByte s off = none) :
    s.ReadsUnwritten := by
  unfold hostReadByte at hv
  split at hv
  · next i htarget =>
    obtain ⟨hoff, hwin, hcap⟩ := (byteTarget_eq_inByte_iff _ _ _).1 htarget
    exact .inl ⟨i, rest, by rwa [← hoff, BitVec.ofNat_toNat, BitVec.setWidth_eq], hwin, hcap, hv⟩
  · next j htarget =>
    obtain ⟨hoff, hwin, hcap⟩ := (byteTarget_eq_outByte_iff _ _ _).1 htarget
    exact .inr (.inl ⟨j, rest, by rwa [← hoff, BitVec.ofNat_toNat, BitVec.setWidth_eq], hwin, hcap, hv⟩)
  · cases hv

theorem step_readByte_next (hs : ¬ s.ReadsUnwritten) (h : s.Offers (.readByte off) rest) :
    ∃ t, step s = .next t := by
  cases hv : hostReadByte s off with
  | none => exact absurd (readsUnwritten_of_hostReadByte h hv) hs
  | some v => exact ⟨_, step_readByte_written h hv⟩

theorem step_writeCmd_next (hs : ¬ s.ReadsUnwritten) (h : s.Offers (.writeWord 0x0000 w) rest) :
    ∃ t, step s = .next t := by
  rw [step_offers h, performAccess_cmd]
  cases hw : decodeWord w with
  | illegal => exact ⟨_, startCommand_of_illegal hw _⟩
  | command i =>
    rw [startCommand_of_command hw]
    rcases exec_by_commandReady i { s with pending := rest } with ⟨_, runs⟩ | ⟨hready, _⟩
    · exact runs
    · exact absurd (.inr (.inr ⟨w, i, rest, h, hw, (not_commandReady_iff _).1 hready⟩)) hs

theorem step_writeWord_next (hs : ¬ s.ReadsUnwritten) (h : s.Offers (.writeWord off w) rest) :
    ∃ t, step s = .next t := by
  cases hreg : regAt off with
  | none => exact ⟨_, step_writeWord_unsupported hreg h⟩
  | some r =>
    obtain rfl := (regAt_eq_some_iff off r).1 hreg
    cases r with
    | cmd => exact step_writeCmd_next hs h
    | inLen => exact ⟨_, step_writeInLen h⟩
    | status | outLen | cap => exact ⟨_, step_writeReadOnlyReg (by decide) (by decide) h⟩

end Accesses

theorem step_offers_next {s : State} {a : HostAccess} {rest : List HostEvent} (hs : ¬ s.ReadsUnwritten)
    (h : s.Offers a rest) : ∃ t, step s = .next t := by
  cases a with
  | readByte off => exact step_readByte_next hs h
  | readWord off => exact ⟨_, step_readWord h⟩
  | writeByte off v => exact ⟨_, step_offers h⟩
  | writeWord off w => exact step_writeWord_next hs h

/-- An event other than an access, and any event while reset is asserted, answers a next state (R180). -/
theorem performEvent_next_of_not_accepted {e : HostEvent} {s : State}
    (h : s.resetAsserted = true ∨ ∀ a, e ≠ .access a) : ∃ t, performEvent e s = .next t := by
  cases e with
  | access a =>
    have hr : s.resetAsserted = true := h.resolve_right fun hne => hne a rfl
    exact ⟨s, by rw [performEvent, if_pos hr]⟩
  | assertReset => exact ⟨_, rfl⟩
  | assertResetDuring w => exact ⟨_, rfl⟩
  | releaseReset =>
    rw [performEvent]
    split
    · exact ⟨_, rfl⟩
    · exact ⟨_, rfl⟩

/-- A step does nothing, performs an access the host offers, or performs an event that is no accepted access. -/
theorem step_next_of_no_offer {s : State} (h : ∀ a rest, ¬ s.Offers a rest) : ∃ t, step s = .next t := by
  unfold step performNext
  split
  · exact ⟨s, rfl⟩
  · next e rest hp =>
    refine performEvent_next_of_not_accepted ?_
    by_contra hacc
    simp only [not_or, Bool.not_eq_true, not_forall, not_not] at hacc
    obtain ⟨hr, a, rfl⟩ := hacc
    exact h a rest ⟨hr, hp⟩

/-- Settles O18: a step without an access to perform always has a next state, and so has one whose access reads no unwritten
byte. -/
theorem stepStopsOnlyOnAnUnwrittenRead : Obligations.StepStopsOnlyOnAnUnwrittenRead := by
  refine fun s => ⟨step_of_readsUnwritten, fun hs => ?_⟩
  by_cases hoffer : ∃ a rest, s.Offers a rest
  · obtain ⟨a, rest, h⟩ := hoffer
    exact step_offers_next hs h
  · exact step_next_of_no_offer fun a rest h => hoffer ⟨a, rest, h⟩

end Sys2Proof.Machine

/-! Reset and idling (spec/70_reset_and_hazards.md). A step is the first pending event; each event of the reset input leaves
the reset values, and no host access but a CMD write reaches the outputs of a command. -/

namespace Sys2Proof.Machine

/-! ### The CORE starts nothing by itself (R182) -/

theorem step_of_nothing_pending {s : State} (hp : s.pending = []) : step s = .next s := by
  simp only [step, performNext, hp]

/-- Settles O3: without a pending event a step changes nothing, and reset leaves the queue empty. -/
theorem idleCoreStartsNothing : Obligations.IdleCoreStartsNothing :=
  ⟨fun _ => step_of_nothing_pending, rfl, step_of_nothing_pending rfl⟩

/-! ### The reset input (R180) -/

/-- A step performs the first pending event, and the event leaves the queue. -/
theorem step_event {s : State} {e : HostEvent} {rest : List HostEvent} (hp : s.pending = e :: rest) :
    step s = performEvent e { s with pending := rest } := by
  simp only [step, performNext, hp]

section ResetInput

variable {s : State} {rest : List HostEvent}

/-- While reset is asserted an access is not accepted: it leaves the queue (log entry 5) and does nothing else. -/
theorem step_access_during_reset {a : HostAccess} (hr : s.resetAsserted = true) (hp : s.pending = .access a :: rest) :
    step s = .next { s with pending := rest } := by
  rw [step_event hp, performEvent, if_pos hr]

/-- Reset asserted between two accesses, or during a CMD write, resets every item. -/
theorem step_assertReset {e : HostEvent} (he : e = .assertReset ∨ ∃ w, e = .assertResetDuring w)
    (hp : s.pending = e :: rest) : step s = .next (resetItems true { s with pending := rest }) := by
  rw [step_event hp]
  rcases he with rfl | ⟨w, rfl⟩
  · rfl
  · rfl

theorem step_releaseReset (hr : s.resetAsserted = true) (hp : s.pending = .releaseReset :: rest) :
    step s = .next (resetItems false { s with pending := rest }) := by
  rw [step_event hp, performEvent, if_pos hr]

end ResetInput

theorem resetItems_hasResetValues (asserted : Bool) (s : State) : (resetItems asserted s).HasResetValues where
  inBuf := fun i => by simp
  outBuf := fun j => by simp
  inLen := rfl
  outLen := rfl
  status := rfl

/-- Settles O2: an access during reset only leaves the queue, and after an assertion of reset, whichever access it
interrupted, the release is the next event. -/
theorem resetInputHoldsAndClearsTheCore : Obligations.ResetInputHoldsAndClearsTheCore := by
  refine ⟨fun s a rest hr hp => ⟨_, step_access_during_reset hr hp, rfl⟩,
    fun s rest hr hp => ⟨_, step_releaseReset hr hp, resetItems_hasResetValues _ _, rfl, rfl⟩,
    fun s e rest he hp => ?_⟩
  exact ⟨_, _, step_assertReset he hp, rfl, rfl, step_releaseReset rfl rfl, resetItems_hasResetValues _ _, rfl, rfl⟩

/-! ### Results stay (R185) -/

section Accesses

variable {s t : State} {off : Offset} {rest : List HostEvent}

theorem step_writeByte {v : Byte} (h : s.Offers (.writeByte off v) rest) :
    step s = .next (hostWriteByte off v { s with pending := rest }) := step_offers h

/-- A word-wide write to an offset other than that of CMD changes at most IN_LEN (R41, R44). -/
theorem step_writeWord_not_cmd {w : Word} (hoff : off ≠ 0x0000) (h : s.Offers (.writeWord off w) rest) :
    ∃ n, step s = .next { s with pending := rest, inLen := n } := by
  cases hreg : regAt off with
  | none => exact ⟨s.inLen, step_writeWord_unsupported hreg h⟩
  | some r =>
    obtain rfl := (regAt_eq_some_iff off r).1 hreg
    cases r with
    | cmd => exact absurd rfl hoff
    | inLen => exact ⟨_, step_writeInLen h⟩
    | status | outLen | cap => exact ⟨s.inLen, step_writeReadOnlyReg (by decide) (by decide) h⟩

/-- A host read, of either width, keeps what a command has left and CAP (R54). -/
theorem step_read_keepsOutputs {a : HostAccess} (ha : a = .readByte off ∨ a = .readWord off) (h : s.Offers a rest)
    (hstep : step s = .next t) :
    t.outBuf = s.outBuf ∧ t.outLen = s.outLen ∧ t.status = s.status ∧ t.config = s.config := by
  obtain ⟨d, rfl⟩ := hostReadsHaveNoSideEffect s off a rest t ha h hstep
  exact ⟨rfl, rfl, rfl, rfl⟩

/-- No host access but a CMD write changes what a command has left, or CAP. -/
theorem step_keepsOutputs_of_not_cmd {a : HostAccess} (h : s.Offers a rest) (ha : ∀ w, a ≠ .writeWord 0x0000 w)
    (hstep : step s = .next t) :
    t.outBuf = s.outBuf ∧ t.outLen = s.outLen ∧ t.status = s.status ∧ t.config = s.config := by
  cases a with
  | readByte off => exact step_read_keepsOutputs (.inl rfl) h hstep
  | readWord off => exact step_read_keepsOutputs (.inr rfl) h hstep
  | writeByte off v =>
    rw [step_writeByte h] at hstep
    cases hstep
    simp
  | writeWord off w =>
    have hoff : off ≠ 0x0000 := by
      rintro rfl
      exact ha w rfl
    obtain ⟨n, hn⟩ := step_writeWord_not_cmd hoff h
    rw [hn] at hstep
    cases hstep
    exact ⟨rfl, rfl, rfl, rfl⟩

/-- The bytes below OUT_LEN are written, and lie inside both OUT_CAP and the OUT window (R24, R183). -/
theorem hostReadByte_result {j : Nat} (hs : s.Inv) (hj : j < s.outLen.toNat) :
    ∃ v, Memory.read s.outBuf j = some v ∧ hostReadByte s (BitVec.ofNat 16 (0x2000 + j)) = some v := by
  obtain ⟨v, hv⟩ := hs.outWritten j hj
  have hcap : j < outCap s.config := hj.trans_le hs.outLenBound
  have hwin : j < 0x1000 := hcap.trans_le (outCap_le_outWindow hs.configLegal)
  exact ⟨v, hv, by rw [hostReadByte_outWindow hwin, if_pos hcap, hv]⟩

end Accesses

/-- Settles O16: an access that is no CMD write keeps the outputs, a write of that kind never stops, and by the invariant the
results are written bytes of the OUT window. -/
theorem resultsStayUntilTheNextCommand : Obligations.ResultsStayUntilTheNextCommand := by
  refine ⟨fun s a rest t => step_keepsOutputs_of_not_cmd, fun s off v rest h => ⟨_, step_writeByte h⟩,
    fun s off w rest hoff h => ?_, fun s j rest hs hj h => ?_⟩
  · obtain ⟨n, hn⟩ := step_writeWord_not_cmd hoff h
    exact ⟨_, hn⟩
  · obtain ⟨v, hv, hread⟩ := hostReadByte_result hs hj
    exact ⟨v, hv, step_readByte_written h hread⟩

end Sys2Proof.Machine
